-- ==== Sys2Proof/Word.lean ====
section
/-!
DEFINITION. The widths of the machine: bytes, 16-bit words, nibbles and 12-bit addresses as bit vectors (spec/30_encoding.md R71,
spec/10_state.md R20, R24, R29), and register indices as `Fin 16` (R74).
-/
namespace Sys2Proof

/-- An 8-bit register or memory cell (R20, R31). -/
abbrev Byte := BitVec 8

/-- A 16-bit word: an instruction, PC, I or a stack slot (R24, R29, R30, R70). -/
abbrev Word := BitVec 16

/-- A 4-bit field of an instruction word (R71). -/
abbrev Nibble := BitVec 4

/-- The 12-bit address immediate `NNN` (R71, R73). -/
abbrev Addr12 := BitVec 12

/-- The index of a general register V0 to VF, and of a key 0 to F (R36, R74). -/
abbrev Reg := Fin 16

/-- VF, the register that is also the flag (R21). -/
abbrev vF : Reg := 15

/-- `hi ++ lo`: the first byte of an instruction is bits 15 to 8 (R55, R92). -/
def joinBytes (hi lo : Byte) : Word := hi ++ lo

/-- The byte stored first, bits 15 to 8 (R55). -/
def highByte (w : Word) : Byte := w.extractLsb' 8 8

/-- The byte stored second, bits 7 to 0 (R55). -/
def lowByte (w : Word) : Byte := w.extractLsb' 0 8

end Sys2Proof
end

