-- ==== Sys2Proof/Config.lean ====
section
/-!
DEFINITION. The parameters spec/00_scope.md R9 leaves open, with their default values, and the one free value of the model, the
random byte of CXNN (R9, spec/40_cycle.md R104).
-/
namespace Sys2Proof

/-- What an access at or above 4096 does (R9, spec/20_memory.md R53). -/
inductive MemOob where
  | mask    -- the effective address is taken modulo 4096
  | fault   -- the access raises AddressOutOfRange
deriving DecidableEq, Repr

/-- What a sprite bit off the 64 x 32 grid does (R9, spec/41_display.md R113). -/
inductive DrawOob where
  | clip    -- it is not drawn, and DrawClipped is reported
  | fault   -- it raises DrawOutOfBounds
deriving DecidableEq, Repr

/-- The active instruction set: the table of the source, or that with the four optional rows (R7, R9, R77). -/
inductive Profile where
  | base
  | ext
deriving DecidableEq, Repr

/-- The configuration of one machine. FONT acts through reset only (R104). -/
structure Params where
  memOob  : MemOob
  drawOob : DrawOob
  profile : Profile
  font    : Vector Byte 80
deriving DecidableEq, Repr

/-- PRESUMED (log entry 6: the spec gives these bytes in spec/10_state.md R33, from general knowledge). Unsafe.
The default of FONT: glyph `d` is bytes `5 d` to `5 d + 4`, top row first. -/
def Config.font : Vector Byte 80 :=
  ⟨(([0xF0, 0x90, 0x90, 0x90, 0xF0] : List Byte) ++
    [0x20, 0x60, 0x20, 0x20, 0x70] ++
    [0xF0, 0x10, 0xF0, 0x80, 0xF0] ++
    [0xF0, 0x10, 0xF0, 0x10, 0xF0] ++
    [0x90, 0x90, 0xF0, 0x10, 0x10] ++
    [0xF0, 0x80, 0xF0, 0x10, 0xF0] ++
    [0xF0, 0x80, 0xF0, 0x90, 0xF0] ++
    [0xF0, 0x10, 0x20, 0x40, 0x40] ++
    [0xF0, 0x90, 0xF0, 0x90, 0xF0] ++
    [0xF0, 0x90, 0xF0, 0x10, 0xF0] ++
    [0xF0, 0x90, 0xF0, 0x90, 0x90] ++
    [0xE0, 0x90, 0xE0, 0x90, 0xE0] ++
    [0xF0, 0x80, 0x80, 0x80, 0xF0] ++
    [0xE0, 0x90, 0x90, 0x90, 0xE0] ++
    [0xF0, 0x80, 0xF0, 0x80, 0xF0] ++
    [0xF0, 0x80, 0xF0, 0x80, 0x80]).toArray, rfl⟩

/-- The default parameters of R9: mask, clip, BASE, the table of R33 (log entries 2, 6, 10, 13, 26). -/
def Config.params : Params :=
  { memOob := .mask, drawOob := .clip, profile := .base, font := Config.font }

/-- Free value (log entry 4, safe): the byte of the `n`-th execution of CXNN. It has no body, so a proof holds for every sequence of
bytes that a host could inject (R104). -/
opaque Config.randByte : Nat → Byte

end Sys2Proof
end

