-- ==== Sys2Proof/Syntax.lean ====
section
/-!
DEFINITION. The instructions: one constructor for each row of spec/opcode_table.json, operands in the order of the fields X, Y, N, NN,
NNN of spec/30_encoding.md R71.
-/
namespace Sys2Proof

inductive Instr where
  | cls                                          -- 00E0  CLS
  | ret                                          -- 00EE  RET
  | jp        (nnn : Addr12)                     -- 1NNN  JP addr
  | call      (nnn : Addr12)                     -- 2NNN  CALL addr
  | seByte    (x : Reg) (nn : Byte)              -- 3XNN  SE Vx, byte
  | sneByte   (x : Reg) (nn : Byte)              -- 4XNN  SNE Vx, byte
  | seReg     (x y : Reg)                        -- 5XY0  SE Vx, Vy
  | ldByte    (x : Reg) (nn : Byte)              -- 6XNN  LD Vx, byte
  | addByte   (x : Reg) (nn : Byte)              -- 7XNN  ADD Vx, byte
  | ldReg     (x y : Reg)                        -- 8XY0  LD Vx, Vy
  | orReg     (x y : Reg)                        -- 8XY1  OR Vx, Vy
  | andReg    (x y : Reg)                        -- 8XY2  AND Vx, Vy
  | xorReg    (x y : Reg)                        -- 8XY3  XOR Vx, Vy
  | addReg    (x y : Reg)                        -- 8XY4  ADD Vx, Vy
  | shr       (x y : Reg)                        -- 8XY6  SHR Vx, Vy (Y is encoded and not read, R147)
  | shl       (x y : Reg)                        -- 8XYE  SHL Vx, Vy (Y is encoded and not read, R148)
  | sneReg    (x y : Reg)                        -- 9XY0  SNE Vx, Vy
  | ldI       (nnn : Addr12)                     -- ANNN  LD I, addr
  | jpV0      (nnn : Addr12)                     -- BNNN  JP V0, addr
  | rnd       (x : Reg) (nn : Byte)              -- CXNN  RND Vx, byte
  | drw       (x y : Reg) (n : Nibble)           -- DXYN  DRW Vx, Vy, nibble
  | ldVxDt    (x : Reg)                          -- FX07  LD Vx, DT
  | ldDtVx    (x : Reg)                          -- FX15  LD DT, Vx
  | ldStVx    (x : Reg)                          -- FX18  LD ST, Vx
  | addI      (x : Reg)                          -- FX1E  ADD I, Vx
  | storeRegs (x : Reg)                          -- FX55  LD [I], Vx
  | loadRegs  (x : Reg)                          -- FX65  LD Vx, [I]
  | skp       (x : Reg)                          -- EX9E  SKP Vx    (profile EXT)
  | sknp      (x : Reg)                          -- EXA1  SKNP Vx   (profile EXT)
  | waitKey   (x : Reg)                          -- FX0A  LD Vx, K  (profile EXT)
  | storeBcd  (x : Reg)                          -- FX33  LD B, Vx  (profile EXT)
deriving DecidableEq, Repr

end Sys2Proof
end

