-- ==== Sys2Proof/WellFormed.lean ====
section
/-!
DEFINITION. When an instruction belongs to the active profile (spec/00_scope.md R7, spec/30_encoding.md R77). The widths of the
operands are facts of their types, so this is the one check an instruction needs.
-/
namespace Sys2Proof

/-- The profile that brings the instruction in ("profile" in spec/opcode_table.json). -/
def Instr.profile : Instr → Profile
  | .cls | .ret | .jp _ | .call _ | .seByte _ _ | .sneByte _ _ | .seReg _ _ | .ldByte _ _ | .addByte _ _ | .ldReg _ _ => .base
  | .orReg _ _ | .andReg _ _ | .xorReg _ _ | .addReg _ _ | .shr _ _ | .shl _ _ | .sneReg _ _ | .ldI _ | .jpV0 _ => .base
  | .rnd _ _ | .drw _ _ _ | .ldVxDt _ | .ldDtVx _ | .ldStVx _ | .addI _ | .storeRegs _ | .loadRegs _ => .base
  | .skp _ | .sknp _ | .waitKey _ | .storeBcd _ => .ext

/-- EXT has every row of BASE and four more (R77). -/
def Profile.includes : Profile → Profile → Bool
  | .ext, .base => true
  | .ext, .ext => true
  | .base, .base => true
  | .base, .ext => false

/-- The instruction exists under profile `p`. -/
def Instr.wellFormed (p : Profile) (i : Instr) : Bool := p.includes i.profile

end Sys2Proof
end

