-- ==== Sys2Proof/Decode.lean ====
section
/-!
DEFINITION. Decoding and encoding (spec/30_encoding.md). The decoder follows the opcode map R75 to R77, family by family; the encoder
follows the patterns of the opcode table; `opcodeTable` is the machine-readable table itself, rows of mask and match (R78), so that
each can be held against the other two.
-/
namespace Sys2Proof

/-! ## Fields (R71) -/

/-- `F`, bits 15 to 12. -/
def family (w : Word) : Nibble := w.extractLsb' 12 4

/-- `X`, bits 11 to 8, as a register index. -/
def fieldX (w : Word) : Reg := (w.extractLsb' 8 4).toFin

/-- `Y`, bits 7 to 4, as a register index. -/
def fieldY (w : Word) : Reg := (w.extractLsb' 4 4).toFin

/-- `N`, bits 3 to 0. -/
def fieldN (w : Word) : Nibble := w.extractLsb' 0 4

/-- `NN`, bits 7 to 0. -/
def fieldNN (w : Word) : Byte := w.extractLsb' 0 8

/-- `NNN`, bits 11 to 0. -/
def fieldNNN (w : Word) : Addr12 := w.extractLsb' 0 12

/-! ## The decoder -/

/-- What a word is: an instruction of the active profile, or an unknown opcode (R78, R79). -/
inductive Decoded where
  | instr (i : Instr)
  | unknownOpcode (w : Word)
deriving DecidableEq, Repr

/-- Family 0: the whole word selects (R75, R76; log entry 12). -/
def decodeFamily0 (w : Word) : Decoded :=
  match w.toNat with
  | 0x00E0 => .instr .cls
  | 0x00EE => .instr .ret
  | _ => .unknownOpcode w

/-- Family 8: `N` selects (R75, R76). -/
def decodeFamily8 (w : Word) : Decoded :=
  match (fieldN w).toNat with
  | 0x0 => .instr (.ldReg (fieldX w) (fieldY w))
  | 0x1 => .instr (.orReg (fieldX w) (fieldY w))
  | 0x2 => .instr (.andReg (fieldX w) (fieldY w))
  | 0x3 => .instr (.xorReg (fieldX w) (fieldY w))
  | 0x4 => .instr (.addReg (fieldX w) (fieldY w))
  | 0x6 => .instr (.shr (fieldX w) (fieldY w))
  | 0xE => .instr (.shl (fieldX w) (fieldY w))
  | _ => .unknownOpcode w

/-- Family E: nothing under BASE, two rows under EXT (R75, R77). -/
def decodeFamilyE (p : Profile) (w : Word) : Decoded :=
  match p, (fieldNN w).toNat with
  | .ext, 0x9E => .instr (.skp (fieldX w))
  | .ext, 0xA1 => .instr (.sknp (fieldX w))
  | _, _ => .unknownOpcode w

/-- Family F: `NN` selects, with two more values under EXT (R75 to R77). -/
def decodeFamilyF (p : Profile) (w : Word) : Decoded :=
  match p, (fieldNN w).toNat with
  | _, 0x07 => .instr (.ldVxDt (fieldX w))
  | _, 0x15 => .instr (.ldDtVx (fieldX w))
  | _, 0x18 => .instr (.ldStVx (fieldX w))
  | _, 0x1E => .instr (.addI (fieldX w))
  | _, 0x55 => .instr (.storeRegs (fieldX w))
  | _, 0x65 => .instr (.loadRegs (fieldX w))
  | .ext, 0x0A => .instr (.waitKey (fieldX w))
  | .ext, 0x33 => .instr (.storeBcd (fieldX w))
  | _, _ => .unknownOpcode w

/-- The decode of one word under profile `p` (R75 to R79, R94). Families 5 and 9 need `N = 0` (R76, `90_conflicts.md` C2; log
entry 12). -/
def decode (p : Profile) (w : Word) : Decoded :=
  match (family w).toNat with
  | 0x0 => decodeFamily0 w
  | 0x1 => .instr (.jp (fieldNNN w))
  | 0x2 => .instr (.call (fieldNNN w))
  | 0x3 => .instr (.seByte (fieldX w) (fieldNN w))
  | 0x4 => .instr (.sneByte (fieldX w) (fieldNN w))
  | 0x5 => if fieldN w = 0 then .instr (.seReg (fieldX w) (fieldY w)) else .unknownOpcode w
  | 0x6 => .instr (.ldByte (fieldX w) (fieldNN w))
  | 0x7 => .instr (.addByte (fieldX w) (fieldNN w))
  | 0x8 => decodeFamily8 w
  | 0x9 => if fieldN w = 0 then .instr (.sneReg (fieldX w) (fieldY w)) else .unknownOpcode w
  | 0xA => .instr (.ldI (fieldNNN w))
  | 0xB => .instr (.jpV0 (fieldNNN w))
  | 0xC => .instr (.rnd (fieldX w) (fieldNN w))
  | 0xD => .instr (.drw (fieldX w) (fieldY w) (fieldN w))
  | 0xE => decodeFamilyE p w
  | _ => decodeFamilyF p w

/-- The decode of the bytes at the front of a list, with the rest of the list; none when fewer than two bytes stand there. Every
instruction is two bytes, the high one first (R55, R70). -/
def decodeBytes (p : Profile) : List Byte → Option (Decoded × List Byte)
  | hi :: lo :: rest => some (decode p (joinBytes hi lo), rest)
  | _ => none

/-! ## The encoder (formats of R72) -/

/-- A register index as the four bits of its field. -/
def regBits (r : Reg) : Nibble := BitVec.ofFin r

/-- Four nibbles, the first the highest: formats XY and XYN. -/
def packXYN (f : Nibble) (x y : Reg) (n : Nibble) : Word := f ++ regBits x ++ regBits y ++ n

/-- Opcode, register and byte: formats XNN and XF. -/
def packXNN (f : Nibble) (x : Reg) (nn : Byte) : Word := f ++ regBits x ++ nn

/-- Opcode and address: format A. -/
def packNNN (f : Nibble) (nnn : Addr12) : Word := f ++ nnn

/-- The word of an instruction, from the patterns of the opcode table. -/
def encode : Instr → Word
  | .cls => 0x00E0
  | .ret => 0x00EE
  | .jp nnn => packNNN 0x1 nnn
  | .call nnn => packNNN 0x2 nnn
  | .seByte x nn => packXNN 0x3 x nn
  | .sneByte x nn => packXNN 0x4 x nn
  | .seReg x y => packXYN 0x5 x y 0x0
  | .ldByte x nn => packXNN 0x6 x nn
  | .addByte x nn => packXNN 0x7 x nn
  | .ldReg x y => packXYN 0x8 x y 0x0
  | .orReg x y => packXYN 0x8 x y 0x1
  | .andReg x y => packXYN 0x8 x y 0x2
  | .xorReg x y => packXYN 0x8 x y 0x3
  | .addReg x y => packXYN 0x8 x y 0x4
  | .shr x y => packXYN 0x8 x y 0x6
  | .shl x y => packXYN 0x8 x y 0xE
  | .sneReg x y => packXYN 0x9 x y 0x0
  | .ldI nnn => packNNN 0xA nnn
  | .jpV0 nnn => packNNN 0xB nnn
  | .rnd x nn => packXNN 0xC x nn
  | .drw x y n => packXYN 0xD x y n
  | .ldVxDt x => packXNN 0xF x 0x07
  | .ldDtVx x => packXNN 0xF x 0x15
  | .ldStVx x => packXNN 0xF x 0x18
  | .addI x => packXNN 0xF x 0x1E
  | .storeRegs x => packXNN 0xF x 0x55
  | .loadRegs x => packXNN 0xF x 0x65
  | .skp x => packXNN 0xE x 0x9E
  | .sknp x => packXNN 0xE x 0xA1
  | .waitKey x => packXNN 0xF x 0x0A
  | .storeBcd x => packXNN 0xF x 0x33

/-- The two bytes of an instruction as memory holds them (R55). -/
def encodeBytes (i : Instr) : List Byte := [highByte (encode i), lowByte (encode i)]

/-! ## The opcode table (R78, spec/opcode_table.json) -/

/-- One row: a word matches it when its bits under `mask` are `bits`. -/
structure OpcodeRow where
  mnemonic : String
  bits     : Word
  mask     : Word
  profile  : Profile
deriving DecidableEq, Repr

def OpcodeRow.matchesWord (r : OpcodeRow) (w : Word) : Bool := w &&& r.mask == r.bits

/-- The row of each instruction, "match", "mask" and "profile" as spec/opcode_table.json has them. -/
def Instr.row : Instr → OpcodeRow
  | .cls => ⟨"CLS", 0x00E0, 0xFFFF, .base⟩
  | .ret => ⟨"RET", 0x00EE, 0xFFFF, .base⟩
  | .jp _ => ⟨"JP_addr", 0x1000, 0xF000, .base⟩
  | .call _ => ⟨"CALL_addr", 0x2000, 0xF000, .base⟩
  | .seByte _ _ => ⟨"SE_Vx__byte", 0x3000, 0xF000, .base⟩
  | .sneByte _ _ => ⟨"SNE_Vx__byte", 0x4000, 0xF000, .base⟩
  | .seReg _ _ => ⟨"SE_Vx__Vy", 0x5000, 0xF00F, .base⟩
  | .ldByte _ _ => ⟨"LD_Vx__byte", 0x6000, 0xF000, .base⟩
  | .addByte _ _ => ⟨"ADD_Vx__byte", 0x7000, 0xF000, .base⟩
  | .ldReg _ _ => ⟨"LD_Vx__Vy", 0x8000, 0xF00F, .base⟩
  | .orReg _ _ => ⟨"OR_Vx__Vy", 0x8001, 0xF00F, .base⟩
  | .andReg _ _ => ⟨"AND_Vx__Vy", 0x8002, 0xF00F, .base⟩
  | .xorReg _ _ => ⟨"XOR_Vx__Vy", 0x8003, 0xF00F, .base⟩
  | .addReg _ _ => ⟨"ADD_Vx__Vy", 0x8004, 0xF00F, .base⟩
  | .shr _ _ => ⟨"SHR_Vx__Vy", 0x8006, 0xF00F, .base⟩
  | .shl _ _ => ⟨"SHL_Vx__Vy", 0x800E, 0xF00F, .base⟩
  | .sneReg _ _ => ⟨"SNE_Vx__Vy", 0x9000, 0xF00F, .base⟩
  | .ldI _ => ⟨"LD_I__addr", 0xA000, 0xF000, .base⟩
  | .jpV0 _ => ⟨"JP_V0__addr", 0xB000, 0xF000, .base⟩
  | .rnd _ _ => ⟨"RND_Vx__byte", 0xC000, 0xF000, .base⟩
  | .drw _ _ _ => ⟨"DRW_Vx__Vy__nibble", 0xD000, 0xF000, .base⟩
  | .ldVxDt _ => ⟨"LD_Vx__DT", 0xF007, 0xF0FF, .base⟩
  | .ldDtVx _ => ⟨"LD_DT__Vx", 0xF015, 0xF0FF, .base⟩
  | .ldStVx _ => ⟨"LD_ST__Vx", 0xF018, 0xF0FF, .base⟩
  | .addI _ => ⟨"ADD_I__Vx", 0xF01E, 0xF0FF, .base⟩
  | .storeRegs _ => ⟨"LD__I___Vx", 0xF055, 0xF0FF, .base⟩
  | .loadRegs _ => ⟨"LD_Vx___I", 0xF065, 0xF0FF, .base⟩
  | .skp _ => ⟨"SKP_Vx", 0xE09E, 0xF0FF, .ext⟩
  | .sknp _ => ⟨"SKNP_Vx", 0xE0A1, 0xF0FF, .ext⟩
  | .waitKey _ => ⟨"LD_Vx__K", 0xF00A, 0xF0FF, .ext⟩
  | .storeBcd _ => ⟨"LD_B__Vx", 0xF033, 0xF0FF, .ext⟩

/-- All 31 rows, each read off an instruction of its row. -/
def opcodeTable : List OpcodeRow :=
  [Instr.cls, .ret, .jp 0, .call 0, .seByte 0 0, .sneByte 0 0, .seReg 0 0, .ldByte 0 0].map Instr.row ++
  [Instr.addByte 0 0, .ldReg 0 0, .orReg 0 0, .andReg 0 0, .xorReg 0 0, .addReg 0 0, .shr 0 0, .shl 0 0].map Instr.row ++
  [Instr.sneReg 0 0, .ldI 0, .jpV0 0, .rnd 0 0, .drw 0 0 0, .ldVxDt 0, .ldDtVx 0, .ldStVx 0].map Instr.row ++
  [Instr.addI 0, .storeRegs 0, .loadRegs 0, .skp 0, .sknp 0, .waitKey 0, .storeBcd 0].map Instr.row

/-! ## Words numbered as the table numbers them -/

/-- The instruction word whose low `nbits` bits are those of `w` and whose other bits are 0. -/
def tableWord (nbits w : Nat) : Word := BitVec.ofNat 16 (w % 2 ^ nbits)

/-- The profile a word needs to be an instruction: EXT for the four optional rows, and `p` for every other word. -/
def profileFor (p : Profile) (w : Word) : Profile :=
  match decode .base w, decode .ext w with
  | .unknownOpcode _, .instr _ => .ext
  | _, _ => p

/-- The instruction the decoder reads from a table word laid out in memory's byte order, under the profile that has every row of the
table (R77). -/
def decodeTableWord (nbits w : Nat) : Option Instr :=
  match decodeBytes .ext [highByte (tableWord nbits w), lowByte (tableWord nbits w)] with
  | some (.instr i, _) => some i
  | some (.unknownOpcode _, _) => none
  | none => none

end Sys2Proof
end

