-- ==== Sys2Proof/Machine/State.lean ====
section
/-!
DEFINITION. The state of the core (spec/10_state.md), the reasons it can stop, and the state after reset (R41, R231).
-/
namespace Sys2Proof.Machine

/-- The fatal errors of a step, with the information each records (spec/60_exceptions.md R201). -/
inductive Fatal where
  | stackOverflow (a : Word)          -- by CALL at `SP = 16`; `a` the address of the word
  | stackUnderflow (a : Word)         -- by RET at `SP = 0`; `a` the address of the word
  | addressOutOfRange (addr : Nat)    -- by the fetch, DRW, LD [I], LD Vx,[I], LD B under MEM_OOB = fault
  | drawOutOfBounds (px py : Nat)     -- by DRW under DRAW_OOB = fault
deriving DecidableEq, Repr

/-- The `status` output of a step (spec/40_cycle.md R90). -/
inductive Status where
  | ok
  | fatal (e : Fatal)
deriving DecidableEq, Repr

/-- The `diag` output of a step: at most one diagnostic, with the word and the address it was fetched from (R90, R99). -/
inductive Diag where
  | none
  | unknownOpcode (w a : Word)
  | drawClipped (w a : Word)
deriving DecidableEq, Repr

/-- The three outputs of a step (R90). -/
structure StepOut where
  status : Status
  diag   : Diag
  tone   : Bool
deriving DecidableEq, Repr

/-- Memory: the cells that differ from what an unlisted address reads as (`Memory.blank`), by rising address (`Memory.wf`). -/
abbrev Memory := List Host.Cell

/-- The framebuffer: cell `64 * y + x` is column `x` of row `y`, true for 1 (R34). -/
abbrev Framebuffer := Vector Bool 2048

/-- Everything the spec gives the core, and three fields of the model's own: `params` (log entry 2), `out` (log entry 5) and `draws`
(log entry 4). -/
structure State where
  /-- V0 to VF (R20). -/
  v      : Vector Byte 16
  /-- The index register (R29). -/
  i      : Word
  /-- The program counter (R24). -/
  pc     : Word
  /-- The number of occupied stack slots, 0 to 16 (R30). -/
  sp     : Fin 17
  /-- The stack slots (R30). -/
  stack  : Vector Word 16
  /-- Memory (R31). -/
  mem    : Memory
  /-- The framebuffer (R34). -/
  fb     : Framebuffer
  /-- The delay timer (R35). -/
  dt     : Byte
  /-- The sound timer (R35). -/
  st     : Byte
  /-- The keypad, true for pressed (R36). -/
  key    : Vector Bool 16
  /-- The fatal-error latch (R38). -/
  halt   : Option Fatal
  /-- The load latch (R39). -/
  loaded : Bool
  /-- The model's own: the configuration, changed by nothing (R42). -/
  params : Params
  /-- The model's own: the outputs of the latest step (R90). -/
  out    : StepOut
  /-- The model's own: how many random bytes CXNN has drawn (R104). -/
  draws  : Nat
deriving DecidableEq, Repr

/-- Reasons for the host's `fault` outcome: there are none. A fatal error of the spec is a next state with HALT set (R97, R203; log
entry 1), and a halted core still steps (R96). Nobody raises a fault; safe. -/
inductive Fault where
deriving DecidableEq, Repr

/-- Reasons for the host's `refused` outcome. -/
inductive Refusal where
  /-- Raised only by an arm of `exec` whose instruction has no meaning yet: no arm does. Safe. -/
  | notModelled (mnemonic : String)
deriving DecidableEq, Repr

/-- The outcome of an instruction or a step. -/
abbrev Result := Host.Outcome State Fault Refusal

/-- The outputs held right after reset. DESIGN CHOICE (log entry 5, unsafe): no step has been made, and the spec gives no value. -/
def StepOut.idle : StepOut := { status := .ok, diag := .none, tone := false }

/-- The core right after reset with the default parameters (R41, R231): memory is all at its reset contents, so nothing is listed. -/
def State.reset : State where
  v := Vector.replicate 16 0
  i := 0
  pc := 0x200
  sp := 0
  stack := Vector.replicate 16 0
  mem := []
  fb := Vector.replicate 2048 false
  dt := 0
  st := 0
  key := Vector.replicate 16 false
  halt := none
  loaded := false
  params := Config.params
  out := StepOut.idle
  draws := 0

end Sys2Proof.Machine
end

