-- ==== Sys2Proof/Machine/Memory.lean ====
section
/-!
DEFINITION. The 4096 bytes of memory as a canonical list of cells: rising addresses, and no cell equal to what an unlisted address
reads as (spec/10_state.md R31, spec/20_memory.md R50, R52).
-/
namespace Sys2Proof.Machine

/-- What an unlisted address reads as: the reset contents, the default font at 0x000 to 0x04F and 0 elsewhere (R41, R52; log
entry 6). -/
def Memory.blank (a : Nat) : Byte := if h : a < 80 then Config.font[a] else 0

/-- The byte at address `a`. -/
def Memory.read : Memory → Nat → Byte
  | [], a => Memory.blank a
  | (b, u) :: m, a => if a = b then u else Memory.read m a

/-- Memory with the byte at address `a` now `u`. -/
def Memory.write : Memory → Nat → Byte → Memory
  | [], a, u => if u = Memory.blank a then [] else [(a, u)]
  | (b, c) :: m, a, u =>
    if a < b then
      if u = Memory.blank a then (b, c) :: m else (a, u) :: (b, c) :: m
    else if a = b then
      if u = Memory.blank a then m else (a, u) :: m
    else (b, c) :: Memory.write m a u

/-- Memory with the listed bytes at `a`, `a + 1`, and so on. -/
def Memory.writeList : Memory → Nat → List Byte → Memory
  | m, _, [] => m
  | m, a, u :: us => Memory.writeList (m.write a u) (a + 1) us

/-- The canonical form, from address `lo` on: addresses rise, lie below 4096, and no cell holds its reset byte. -/
def Memory.wfFrom : Nat → Memory → Bool
  | _, [] => true
  | lo, (a, u) :: m => decide (lo ≤ a) && decide (a < 4096) && decide (u ≠ Memory.blank a) && Memory.wfFrom (a + 1) m

/-- The canonical form. -/
def Memory.wf (m : Memory) : Bool := Memory.wfFrom 0 m

/-- Memory after reset with the font bytes `font` (R41, R231). -/
def Memory.ofFont (font : Vector Byte 80) : Memory := Memory.writeList [] 0 font.toList

end Sys2Proof.Machine
end

