-- ==== Sys2Proof/Machine/Ops.lean ====
section
/-!
DEFINITION. The shared operations: one setter for each piece of state an instruction writes, memory accesses through the effective
address (spec/20_memory.md R53), entry into a fatal error (spec/60_exceptions.md R203), diagnostics, the stack and the random byte.
-/
namespace Sys2Proof.Machine

/-! ## Setters -/

def State.setI (s : State) (w : Word) : State := { s with i := w }
def State.setPc (s : State) (w : Word) : State := { s with pc := w }
def State.setDt (s : State) (b : Byte) : State := { s with dt := b }
def State.setSt (s : State) (b : Byte) : State := { s with st := b }
def State.setMem (s : State) (m : Memory) : State := { s with mem := m }
def State.setFb (s : State) (f : Framebuffer) : State := { s with fb := f }

/-- The value of `V[r]` (R20). -/
def State.getV (s : State) (r : Reg) : Byte := s.v[r]

/-- `V[r] <- b` (R20). No register is hard-wired. -/
def State.setV (s : State) (r : Reg) (b : Byte) : State := { s with v := s.v.set r b }

/-! ## Errors and diagnostics -/

/-- The address `a` the executing word was fetched from: PC already holds `trunc_16(a + 2)` (R25, R93; log entry 21). -/
def State.execAddr (s : State) : Word := s.pc - 2

/-- ENTRY INTO A FATAL ERROR, from the state before the step: HALT latches the error, LOADED is true, the outputs are
`(fatal(E), none, false)`, and every other piece of state keeps its value (R97, R203; log entry 1). There is no handler and no return:
only reset leaves the halted state (R205, `State.resetSession`). -/
def State.takeFatal (s : State) (e : Fatal) : State :=
  { s with halt := some e, loaded := true, out := { status := .fatal e, diag := .none, tone := false } }

/-- `raise E` in the execute phase: entry into the error with PC back at the fetch address. Applied to the state the instruction
started from, so that none of its effects remains (R13, R97). -/
def State.raise (s : State) (e : Fatal) : Result := .next ((s.setPc s.execAddr).takeFatal e)

/-- The end of an instruction that started in `s`: its new state, or the entry into the error it met. -/
def State.complete (s : State) : Except Fatal State → Result
  | .ok t => .next t
  | .error e => s.raise e

/-- `report D`: the step's `diag` output, and no state of the core (R13, R99). -/
def State.report (s : State) (d : Diag) : State := { s with out := { s.out with diag := d } }

/-! ## Memory accesses -/

/-- The effective address of the unbounded address `a` (R53; log entry 26). -/
def effectiveAddress (m : MemOob) (a : Nat) : Except Fatal Nat :=
  match m with
  | .mask => .ok (a % 4096)
  | .fault => if 4096 ≤ a then .error (.addressOutOfRange a) else .ok a

/-- `MemRead(a, 1)` (R13, R53). -/
def State.memRead (s : State) (a : Nat) : Except Fatal Byte :=
  match effectiveAddress s.params.memOob a with
  | .ok ea => .ok (s.mem.read ea)
  | .error e => .error e

/-- `MemWrite(a, 1, b)` (R13, R53). -/
def State.memWrite (s : State) (a : Nat) (b : Byte) : Except Fatal State :=
  match effectiveAddress s.params.memOob a with
  | .ok ea => .ok (s.setMem (s.mem.write ea b))
  | .error e => .error e

/-- The listed bytes written at `a`, `a + 1`, and so on, in that order (R61). -/
def State.storeBytes (s : State) (a : Nat) : List Byte → Except Fatal State
  | [] => .ok s
  | b :: bs =>
    match s.memWrite a b with
    | .ok t => t.storeBytes (a + 1) bs
    | .error e => .error e

/-- `V[r] <- MemRead(a + r, 1)` for each register of the list, in its order (R61, R163). -/
def State.loadRange (s : State) (a : Nat) : List Reg → Except Fatal State
  | [] => .ok s
  | r :: rs =>
    match s.memRead (a + r.val) with
    | .ok b => (s.setV r b).loadRange a rs
    | .error e => .error e

/-! ## The stack, the skip and the random byte -/

/-- Push PC and jump, or none when the 16 slots are occupied (R30, R122). -/
def State.pushCall (s : State) (target : Word) : Option State :=
  if h : s.sp.val < 16 then
    some { s with stack := s.stack.set s.sp.val s.pc, sp := ⟨s.sp.val + 1, by omega⟩, pc := target }
  else none

/-- Pop into PC, or none when no slot is occupied. The slot keeps its value (R30, R120; log entry 15). -/
def State.popReturn (s : State) : Option State :=
  if h : 0 < s.sp.val then
    some { s with sp := ⟨s.sp.val - 1, by omega⟩, pc := s.stack[s.sp.val - 1] }
  else none

/-- Skip the next two bytes when `c` holds (R130). -/
def State.skipIf (s : State) (c : Bool) : State := if c then s.setPc (s.pc + 2) else s

/-- `rand8()`: the byte this execution of CXNN draws (R9, R13, R104; log entry 4). -/
def State.randomByte (s : State) : Byte := Config.randByte s.draws

/-- One more byte has been drawn. -/
def State.countDraw (s : State) : State := { s with draws := s.draws + 1 }

end Sys2Proof.Machine
end

