-- ==== Sys2Proof/Machine/Operands.lean ====
section
/-!
DEFINITION. Operand forms: how fields, registers and memory become the values an instruction works on (spec/30_encoding.md R73, R74).
-/
namespace Sys2Proof.Machine

/-- `zext_16(NNN)` (R73). -/
def addressOperand (nnn : Addr12) : Word := nnn.setWidth 16

/-- `trunc_16(NNN + V[0])` (R73, R123). -/
def State.offsetTarget (s : State) (nnn : Addr12) : Word := BitVec.ofNat 16 (nnn.toNat + (s.getV 0).toNat)

/-- `V[0]` to `V[x]`, in ascending order (R74). -/
def registerRange (x : Reg) : List Reg := (List.finRange 16).take (x.val + 1)

/-- The values of `V[0]` to `V[x]`. -/
def State.rangeValues (s : State) (x : Reg) : List Byte := (registerRange x).map s.getV

/-- The key that `V[x]` names: its low nibble (R181; log entry 13). -/
def State.keyIndex (s : State) (x : Reg) : Reg := ((s.getV x).extractLsb' 0 4).toFin

/-- Whether the key that `V[x]` names is pressed (R181, R182). -/
def State.keyPressed (s : State) (x : Reg) : Bool := s.key[s.keyIndex x]

/-- The least pressed key, if some key is pressed (R183; log entry 13). -/
def State.leastKey (s : State) : Option Reg := (List.finRange 16).find? (fun k => s.key[k])

/-- A key index as a register value. -/
def keyByte (k : Reg) : Byte := BitVec.ofNat 8 k.val

/-- The sprite's origin column, `V[x] mod 64` (R111). -/
def State.originX (s : State) (x : Reg) : Nat := (s.getV x).toNat % 64

/-- The sprite's origin row, `V[y] mod 32` (R111). -/
def State.originY (s : State) (y : Reg) : Nat := (s.getV y).toNat % 32

/-- The hundreds, tens and units of a byte (R184). -/
def decimalDigits (b : Byte) : List Byte :=
  [BitVec.ofNat 8 (b.toNat / 100), BitVec.ofNat 8 (b.toNat / 10 % 10), BitVec.ofNat 8 (b.toNat % 10)]

end Sys2Proof.Machine
end

