-- ==== Sys2Proof/Machine/Flags.lean ====
section
/-!
DEFINITION. Every flag computation. VF is the only flag, and each value written to it as a flag is 0 or 1 (spec/10_state.md R21, R37).
-/
namespace Sys2Proof.Machine

/-- A condition as a flag value. -/
def flagByte (c : Bool) : Byte := if c then 1 else 0

/-- The carry of 8XY4: 1 when the widened sum exceeds 255, and 0 otherwise (R146, `90_conflicts.md` C1; log entry 9). -/
def carryFlag (a b : Byte) : Byte := flagByte (255 < a.toNat + b.toNat)

/-- The bit SHR shifts out (R147). -/
def shiftedOutRight (a : Byte) : Byte := a &&& 1

/-- The bit SHL shifts out, as 0 or 1 (R148). -/
def shiftedOutLeft (a : Byte) : Byte := flagByte (a.getLsbD 7)

/-- The collision flag of DXYN (R112). -/
def collisionFlag (hit : Bool) : Byte := flagByte hit

end Sys2Proof.Machine
end

