-- ==== Sys2Proof/Machine/Cycle.lean ====
section
/-!
DEFINITION. The phases of a step around the execute phase (spec/40_cycle.md R92): fetch, the advance of PC, the unknown opcode, the
timer tick, and the step of a halted core; and the placing of a word where the next step fetches.
-/
namespace Sys2Proof.Machine

/-- The word at PC, two byte reads, the high byte first (R55, R92). PC is not truncated before the second read. -/
def State.fetch (s : State) : Except Fatal Word :=
  match s.memRead s.pc.toNat with
  | .error e => .error e
  | .ok hi =>
    match s.memRead (s.pc.toNat + 1) with
    | .error e => .error e
    | .ok lo => .ok (joinBytes hi lo)

/-- After the fetch and before the execute phase: LOADED is true, PC is past the word (modulo 2^16), nothing is reported yet (R92,
R93, R103). -/
def State.beginStep (s : State) : State :=
  { s with pc := s.pc + 2, loaded := true, out := { status := .ok, diag := .none, tone := false } }

/-- The execute phase of a word that is no instruction: a diagnostic and nothing else (R98). -/
def State.execUnknown (s : State) (w : Word) : State := s.report (.unknownOpcode w s.execAddr)

/-- One timer's countdown, floored at 0 (R35, R210). -/
def countDown (t : Byte) : Byte := if t = 0 then 0 else t - 1

/-- The timer tick; `tone` is taken before the sound timer counts down (R210, R213; log entry 19). -/
def State.tick (s : State) : State :=
  { s with dt := countDown s.dt, st := countDown s.st, out := { s.out with tone := s.st != 0 } }

/-- The end of a step: the tick, but not when the step raised a fatal error (R97, R100). -/
def State.finishStep (s : State) : State :=
  match s.halt with
  | none => s.tick
  | some _ => s

/-- A step of a halted core: the latched error is returned, and no state changes (R96, R204; log entry 17). -/
def State.stepHalted (s : State) (e : Fatal) : State :=
  { s with out := { status := .fatal e, diag := .none, tone := false } }

/-- The state with `w` at PC, high byte first, and whatever else the next fetch of it needs: no latched error, and profile EXT when
`w` is one of the four optional instructions (log entry 3). Under MEM_OOB = fault, a PC above 0xFFE has no place to put it. -/
def State.placeWord (s : State) (w : Word) : State :=
  { s with
    mem := (s.mem.write (s.pc.toNat % 4096) (highByte w)).write ((s.pc.toNat + 1) % 4096) (lowByte w)
    halt := none
    params := { s.params with profile := profileFor s.params.profile w } }

end Sys2Proof.Machine
end

