-- ==== Sys2Proof/Machine/Alu.lean ====
section
/-!
DEFINITION. Register loads and arithmetic: 6XNN, 7XNN, 8XY0 to 8XYE, CXNN (spec/44_register_alu.md). Where VF and `V[x]` are both
written, VF is written first, and the lines after it read what it left (R13; log entry 8).
-/
namespace Sys2Proof.Machine

/-- LD Vx, byte (R140). -/
def execLdByte (x : Reg) (nn : Byte) (s : State) : Result := .next (s.setV x nn)

/-- ADD Vx, byte (R141): no flag. -/
def execAddByte (x : Reg) (nn : Byte) (s : State) : Result := .next (s.setV x (s.getV x + nn))

/-- LD Vx, Vy (R142). -/
def execLdReg (x y : Reg) (s : State) : Result := .next (s.setV x (s.getV y))

/-- OR Vx, Vy (R143). -/
def execOrReg (x y : Reg) (s : State) : Result := .next (s.setV x (s.getV x ||| s.getV y))

/-- AND Vx, Vy (R144). -/
def execAndReg (x y : Reg) (s : State) : Result := .next (s.setV x (s.getV x &&& s.getV y))

/-- XOR Vx, Vy (R145). -/
def execXorReg (x y : Reg) (s : State) : Result := .next (s.setV x (s.getV x ^^^ s.getV y))

/-- ADD Vx, Vy (R146): both operands are read, then VF takes the carry, then `V[x]` the truncated sum. -/
def execAddReg (x y : Reg) (s : State) : Result :=
  .next ((s.setV vF (carryFlag (s.getV x) (s.getV y))).setV x (s.getV x + s.getV y))

/-- SHR Vx, Vy (R147): VF takes bit 0 of `V[x]`, then `V[x]` as it then stands is shifted. `y` is not read. -/
def execShr (x _y : Reg) (s : State) : Result :=
  let t := s.setV vF (shiftedOutRight (s.getV x))
  .next (t.setV x (t.getV x >>> 1))

/-- SHL Vx, Vy (R148): VF takes bit 7 of `V[x]`, then `V[x]` as it then stands is shifted. `y` is not read. -/
def execShl (x _y : Reg) (s : State) : Result :=
  let t := s.setV vF (shiftedOutLeft (s.getV x))
  .next (t.setV x (t.getV x <<< 1))

/-- RND Vx, byte (R149): the byte drawn, under the mask. -/
def execRnd (x : Reg) (nn : Byte) (s : State) : Result := .next ((s.setV x (s.randomByte &&& nn)).countDraw)

end Sys2Proof.Machine
end

