-- ==== Sys2Proof/Machine/Display.lean ====
section
/-!
DEFINITION. The display instructions 00E0 and DXYN (spec/41_display.md).
-/
namespace Sys2Proof.Machine

/-- CLS (R110): every cell becomes 0. -/
def execCls (s : State) : Result := .next (s.setFb (Vector.replicate 2048 false))

/-- What a drawing has done so far: the framebuffer, whether a drawn bit met a 1, whether a bit was clipped. -/
structure Drawing where
  fb      : Framebuffer
  hit     : Bool
  clipped : Bool
deriving DecidableEq, Repr

/-- One sprite bit 1 at column `px` and row `py` (R112, R113; log entry 10). -/
def Drawing.pixel (d : Drawing) (oob : DrawOob) (px py : Nat) : Except Fatal Drawing :=
  if h : px < 64 ∧ py < 32 then
    let cell := d.fb[64 * py + px]'(by omega)
    .ok { d with fb := d.fb.set (64 * py + px) (!cell) (by omega), hit := d.hit || cell }
  else
    match oob with
    | .clip => .ok { d with clipped := true }
    | .fault => .error (.drawOutOfBounds px py)

/-- The bit of a sprite row at sprite column `c`, the most significant bit being column 0 (R112). -/
def spriteBit (row : Byte) (c : Nat) : Bool := row.getLsbD (7 - c)

/-- The bits of one row at the sprite columns of the list, drawn in its order. -/
def Drawing.row (d : Drawing) (oob : DrawOob) (x0 py : Nat) (row : Byte) : List Nat → Except Fatal Drawing
  | [] => .ok d
  | c :: cs =>
    if spriteBit row c then
      match d.pixel oob (x0 + c) py with
      | .ok d' => d'.row oob x0 py row cs
      | .error e => .error e
    else d.row oob x0 py row cs

/-- The sprite rows of the list, each read from memory before its bits are drawn (R61, R112). -/
def State.drawRows (s : State) (x0 y0 : Nat) (d : Drawing) : List Nat → Except Fatal Drawing
  | [] => .ok d
  | r :: rs =>
    match s.memRead (s.i.toNat + r) with
    | .error e => .error e
    | .ok row =>
      match d.row s.params.drawOob x0 (y0 + r) row (List.range 8) with
      | .ok d' => s.drawRows x0 y0 d' rs
      | .error e => .error e

/-- The whole sprite of `n` rows at the origin the registers give (R111; log entry 10). -/
def State.drawSprite (s : State) (x y : Reg) (n : Nibble) : Except Fatal Drawing :=
  s.drawRows (s.originX x) (s.originY y) { fb := s.fb, hit := false, clipped := false } (List.range n.toNat)

/-- DRW (R111 to R113): the coordinates are read before VF is written, VF ends as the collision flag, and DrawClipped is reported
once when some bit was clipped. -/
def execDrw (x y : Reg) (n : Nibble) (s : State) : Result :=
  match s.drawSprite x y n with
  | .error e => s.raise e
  | .ok d =>
    let t := (s.setV vF (collisionFlag d.hit)).setFb d.fb
    .next (if d.clipped then t.report (.drawClipped (encode (.drw x y n)) s.execAddr) else t)

end Sys2Proof.Machine
end

