-- ==== Sys2Proof/Machine/Extensions.lean ====
section
/-!
DEFINITION. The optional extensions, which decode only under profile EXT: EX9E, EXA1, FX0A, FX33 (spec/48_optional_extensions.md,
whose encodings and semantics are from general knowledge; log entry 13). The decoder is the gate (R94, R180; log entry 20).
-/
namespace Sys2Proof.Machine

/-- SKP Vx (R181). -/
def execSkp (x : Reg) (s : State) : Result := .next (s.skipIf (s.keyPressed x))

/-- SKNP Vx (R182). -/
def execSknp (x : Reg) (s : State) : Result := .next (s.skipIf (!s.keyPressed x))

/-- LD Vx, K (R183): the least pressed key, or PC back at this word, to run it again at the next step. -/
def execWaitKey (x : Reg) (s : State) : Result :=
  match s.leastKey with
  | some k => .next (s.setV x (keyByte k))
  | none => .next (s.setPc (s.pc - 2))

/-- LD B, Vx (R184): the three decimal digits of `V[x]`. -/
def execStoreBcd (x : Reg) (s : State) : Result := s.complete (s.storeBytes s.i.toNat (decimalDigits (s.getV x)))

end Sys2Proof.Machine
end

