-- ==== Sys2Proof/Machine/Flow.lean ====
section
/-!
DEFINITION. Control transfer: 00EE, 1NNN, 2NNN, BNNN (spec/42_flow.md). PC holds the address after the word on entry (R25). No target
is validated (R27; log entry 11).
-/
namespace Sys2Proof.Machine

/-- RET (R120). -/
def execRet (s : State) : Result :=
  match s.popReturn with
  | some t => .next t
  | none => s.raise (.stackUnderflow s.execAddr)

/-- JP addr (R121). -/
def execJp (nnn : Addr12) (s : State) : Result := .next (s.setPc (addressOperand nnn))

/-- CALL addr (R122). -/
def execCall (nnn : Addr12) (s : State) : Result :=
  match s.pushCall (addressOperand nnn) with
  | some t => .next t
  | none => s.raise (.stackOverflow s.execAddr)

/-- JP V0, addr (R123). -/
def execJpV0 (nnn : Addr12) (s : State) : Result := .next (s.setPc (s.offsetTarget nnn))

end Sys2Proof.Machine
end

