-- ==== Sys2Proof/Machine/Index.lean ====
section
/-!
DEFINITION. The index register and memory transfers: ANNN, FX1E, FX55, FX65 (spec/45_index_memory.md). I keeps its value in FX55 and
FX65 (log entry 14).
-/
namespace Sys2Proof.Machine

/-- LD I, addr (R160). -/
def execLdI (nnn : Addr12) (s : State) : Result := .next (s.setI (addressOperand nnn))

/-- ADD I, Vx (R161): modulo 2^16, no flag. -/
def execAddI (x : Reg) (s : State) : Result := .next (s.setI (s.i + (s.getV x).setWidth 16))

/-- LD [I], Vx (R162). -/
def execStoreRegs (x : Reg) (s : State) : Result := s.complete (s.storeBytes s.i.toNat (s.rangeValues x))

/-- LD Vx, [I] (R163). -/
def execLoadRegs (x : Reg) (s : State) : Result := s.complete (s.loadRange s.i.toNat (registerRange x))

end Sys2Proof.Machine
end

