-- ==== Sys2Proof/Machine/Timers.lean ====
section
/-!
DEFINITION. Timer access: FX07, FX15, FX18 (spec/46_timers.md). The tick of the same step follows (`State.tick`, R100).
-/
namespace Sys2Proof.Machine

/-- LD Vx, DT (R170): the value before this step's tick. -/
def execLdVxDt (x : Reg) (s : State) : Result := .next (s.setV x s.dt)

/-- LD DT, Vx (R171). -/
def execLdDtVx (x : Reg) (s : State) : Result := .next (s.setDt (s.getV x))

/-- LD ST, Vx (R172). -/
def execLdStVx (x : Reg) (s : State) : Result := .next (s.setSt (s.getV x))

end Sys2Proof.Machine
end

