-- ==== Sys2Proof/Machine/Step.lean ====
section
/-!
DEFINITION. One step (spec/40_cycle.md R92): the halted check, the fetch, decode, the execute phase, the tick.
-/
namespace Sys2Proof.Machine

/-- The execute phase of a decoded word, on a state that `State.beginStep` left, and the end of the step. -/
def State.runDecoded (s : State) : Decoded → Result
  | .unknownOpcode w => .next (s.execUnknown w).finishStep
  | .instr i =>
    match exec i s with
    | .next t => .next t.finishStep
    | .fault r => .fault r
    | .refused r => .refused r

/-- One step (R92, R96, R97). -/
def step (s : State) : Host.Outcome State Fault Refusal :=
  match s.halt with
  | some e => .next (s.stepHalted e)
  | none =>
    match s.fetch with
    | .error e => .next (s.takeFatal e)
    | .ok w => s.beginStep.runDecoded (decode s.params.profile w)

/-- The state with a table word where the next step fetches (log entry 3). -/
def State.withFetchWord (s : State) (nbits w : Nat) : State := s.placeWord (tableWord nbits w)

end Sys2Proof.Machine
end

