-- ==== Sys2Proof/Machine/HostPort.lean ====
section
/-!
DEFINITION. What the host can do to the core, between transactions (spec/60_exceptions.md R215 to R219, spec/40_cycle.md R101 to R103,
spec/70_reset_and_hazards.md R230 to R233), and the numeric codes of the conditions (R201).
-/
namespace Sys2Proof.Machine

/-- The result of a load (R101, R201). -/
inductive LoadResult where
  | ok
  | programTooLarge (len : Nat)
  | loadRefused
deriving DecidableEq, Repr

/-- The largest loadable program, `4096 - 0x200` bytes (R8). -/
def maxProgram : Nat := 3584

/-- `load(bytes)` (R101, R102; log entry 16): the result, and the state after. -/
def State.load (s : State) (bytes : List Byte) : LoadResult × State :=
  if s.loaded then (.loadRefused, s)
  else if maxProgram < bytes.length then (.programTooLarge bytes.length, s)
  else (.ok, { s with mem := s.mem.writeList 0x200 bytes, loaded := true })

/-- The framebuffer as the host reads it: each cell 0 or 1, row-major (R216). -/
def State.readFramebuffer (s : State) : Vector Nat 2048 := s.fb.map Bool.toNat

/-- One key written (R217). -/
def State.writeKey (s : State) (k : Reg) (pressed : Bool) : State := { s with key := s.key.set k pressed }

/-- Any subset of the keys written, in the order given (R217, R219). -/
def State.writeKeys (s : State) : List (Reg × Bool) → State
  | [] => s
  | (k, pressed) :: rest => (s.writeKey k pressed).writeKeys rest

/-- The sound query: whether ST is nonzero (R218; log entry 19). -/
def State.soundQuery (s : State) : Bool := s.st != 0

/-- The core right after construction with the parameters `p` (R230, R231; log entry 2). -/
def State.resetWith (p : Params) : State := { State.reset with mem := Memory.ofFont p.font, params := p }

/-- A reset at any time: a new session with the same parameters (R230, R232). The count of random bytes drawn goes on, so that a new
session does not draw the old bytes again (log entry 22). -/
def State.resetSession (s : State) : State := { State.resetWith s.params with draws := s.draws }

/-- The moves of the host (R219), and reset. -/
inductive HostMove where
  | load (bytes : List Byte)
  | step
  | readFramebuffer
  | writeKeypad (keys : List (Reg × Bool))
  | querySound
  | reset
deriving DecidableEq, Repr

/-- What the core returns to a move (R219). `none` for a keypad write and a reset. -/
inductive HostReply where
  | loaded (r : LoadResult)
  | stepped (o : StepOut)
  | pixels (cells : Vector Nat 2048)
  | sound (nonzero : Bool)
  | none
deriving DecidableEq, Repr

/-- One move of the host: the reply, and the state after. A step never ends in the host's `refused` outcome, so that case keeps the
state and replies nothing. -/
def State.answer (s : State) : HostMove → HostReply × State
  | .load bytes => (.loaded (s.load bytes).1, (s.load bytes).2)
  | .step =>
    match Machine.step s with
    | .next t => (.stepped t.out, t)
    | .fault r => nomatch r
    | .refused _ => (.none, s)
  | .readFramebuffer => (.pixels s.readFramebuffer, s)
  | .writeKeypad keys => (.none, s.writeKeys keys)
  | .querySound => (.sound s.soundQuery, s)
  | .reset => (.none, s.resetSession)

/-- A session: the state after a list of moves (R105, R233). -/
def State.session (s : State) : List HostMove → State
  | [] => s
  | m :: ms => ((s.answer m).2).session ms

/-- The code of a fatal error (R201; log entry 23). -/
def Fatal.code : Fatal → Nat
  | .stackOverflow _ => 0x01
  | .stackUnderflow _ => 0x02
  | .addressOutOfRange _ => 0x03
  | .drawOutOfBounds _ _ => 0x04

/-- The code of a diagnostic, if there is one (R201). -/
def Diag.code : Diag → Option Nat
  | .none => Option.none
  | .unknownOpcode _ _ => some 0x10
  | .drawClipped _ _ => some 0x11

/-- The code of a load result that is not ok (R201). -/
def LoadResult.code : LoadResult → Option Nat
  | .ok => none
  | .programTooLarge _ => some 0x20
  | .loadRefused => some 0x21

end Sys2Proof.Machine
end

