-- ==== Sys2Proof/Safety.lean ====
section
/-!
DEFINITION. What a good state and a safe run are, in the terms the claims use.
-/
namespace Sys2Proof

/-- The registers an instruction may write (R23; `LD Vx, K` by R183). -/
def Instr.writesReg (i : Instr) (r : Reg) : Prop :=
  match i with
  | .ldByte x _ | .addByte x _ | .ldReg x _ | .orReg x _ | .andReg x _ | .xorReg x _ | .rnd x _ | .ldVxDt x | .waitKey x => r = x
  | .addReg x _ | .shr x _ | .shl x _ => r = 15 ∨ r = x
  | .drw _ _ _ => r = 15
  | .loadRegs x => r ≤ x
  | .cls | .ret | .jp _ | .call _ | .seByte _ _ | .sneByte _ _ | .seReg _ _ | .sneReg _ _ | .ldI _ | .jpV0 _ => False
  | .ldDtVx _ | .ldStVx _ | .addI _ | .storeRegs _ | .skp _ | .sknp _ | .storeBcd _ => False

/-- Byte `k` of those the instruction stores, at the effective address of `I + k` (R162, R184); none past the last, and none for an
instruction that stores nothing (R51). -/
def Instr.storedByte (i : Instr) (s : Machine.State) (k : Nat) : Option Byte :=
  match i with
  | .storeRegs x => if h : k ≤ x.val then some (s.getV ⟨k, by omega⟩) else none
  | .storeBcd x =>
    match k with
    | 0 => some (BitVec.ofNat 8 ((s.getV x).toNat / 100))
    | 1 => some (BitVec.ofNat 8 ((s.getV x).toNat / 10 % 10))
    | 2 => some (BitVec.ofNat 8 ((s.getV x).toNat % 10))
    | _ => none
  | .cls | .ret | .jp _ | .call _ | .seByte _ _ | .sneByte _ _ | .seReg _ _ | .ldByte _ _ | .addByte _ _ | .ldReg _ _ => none
  | .orReg _ _ | .andReg _ _ | .xorReg _ _ | .addReg _ _ | .shr _ _ | .shl _ _ | .sneReg _ _ | .ldI _ | .jpV0 _ => none
  | .rnd _ _ | .drw _ _ _ | .ldVxDt _ | .ldDtVx _ | .ldStVx _ | .addI _ | .loadRegs _ | .skp _ | .sknp _ | .waitKey _ => none

/-- The instructions that may leave PC elsewhere than past their word (R26). -/
def Instr.writesPc : Instr → Prop
  | .ret | .jp _ | .call _ | .jpV0 _ | .seByte _ _ | .sneByte _ _ | .seReg _ _ | .sneReg _ _ | .skp _ | .sknp _ | .waitKey _ => True
  | .cls | .ldByte _ _ | .addByte _ _ | .ldReg _ _ | .orReg _ _ | .andReg _ _ | .xorReg _ _ | .addReg _ _ | .shr _ _ => False
  | .shl _ _ | .ldI _ | .rnd _ _ | .drw _ _ _ | .ldVxDt _ | .ldDtVx _ | .ldStVx _ | .addI _ | .storeRegs _ => False
  | .loadRegs _ | .storeBcd _ => False

end Sys2Proof

namespace Sys2Proof.Machine

/-- The outputs a state holds agree with its latch: ok when no error is latched, and else the fatal error with no diagnostic, no tone
and LOADED true (R96, R97, R203, R204). -/
def State.latchAgrees (s : State) : Prop :=
  match s.halt with
  | none => s.out.status = .ok
  | some e => s.loaded = true ∧ s.out = { status := .fatal e, diag := .none, tone := false }

/-- The invariant of every reachable state: canonical memory, and outputs that agree with the latch. -/
def State.Inv (s : State) : Prop := s.mem.wf = true ∧ s.latchAgrees

/-- No fatal error is latched: the run goes on. -/
def State.Running (s : State) : Prop := s.halt = none

/-- An even address in the program region that a whole word fits above (R28). -/
def GoodTarget (a : Word) : Prop := a.toNat % 2 = 0 ∧ 0x200 ≤ a.toNat ∧ a.toNat ≤ 0xFFE

/-- PC and every occupied stack slot are good targets (R28). -/
def State.PcInv (s : State) : Prop :=
  GoodTarget s.pc ∧ ∀ j : Fin 16, j.val < s.sp.val → GoodTarget s.stack[j]

/-- An address that reaches a byte of memory (R53). -/
def State.Reaches (s : State) (a : Nat) : Prop := s.params.memOob = .mask ∨ a < 4096

/-- Both bytes of the word at PC reach memory, so that a step fetches it (R92). -/
def State.Fetchable (s : State) : Prop := s.Reaches (s.pc.toNat + 1)

/-- The word at PC: the byte there is bits 15 to 8 (R55). -/
def State.wordAtPc (s : State) : Word := s.mem.read (s.pc.toNat % 4096) ++ s.mem.read ((s.pc.toNat + 1) % 4096)

/-- What the word at PC is under the active profile (R94). -/
def State.decoded (s : State) : Decoded := decode s.params.profile s.wordAtPc

/-- The premises of R28 on one step: a jump, call or BNNN target is even and in the program region, and no advance or skip passes
0xFFE. `d` is what the word at PC is. -/
def State.StaysInProgram (s : State) (d : Decoded) : Prop :=
  match d with
  | .unknownOpcode _ => s.pc.toNat + 2 ≤ 0xFFE
  | .instr i =>
    match i with
    | .ret => True
    | .jp nnn => GoodTarget (nnn.setWidth 16)
    | .call nnn => GoodTarget (nnn.setWidth 16) ∧ s.pc.toNat + 2 ≤ 0xFFE
    | .jpV0 nnn => GoodTarget (BitVec.ofNat 16 (nnn.toNat + (s.getV 0).toNat))
    | .seByte _ _ | .sneByte _ _ | .seReg _ _ | .sneReg _ _ | .skp _ | .sknp _ => s.pc.toNat + 4 ≤ 0xFFE
    | .cls | .ldByte _ _ | .addByte _ _ | .ldReg _ _ | .orReg _ _ | .andReg _ _ | .xorReg _ _ => s.pc.toNat + 2 ≤ 0xFFE
    | .addReg _ _ | .shr _ _ | .shl _ _ | .ldI _ | .rnd _ _ | .drw _ _ _ | .ldVxDt _ | .ldDtVx _ => s.pc.toNat + 2 ≤ 0xFFE
    | .ldStVx _ | .addI _ | .storeRegs _ | .loadRegs _ | .waitKey _ | .storeBcd _ => s.pc.toNat + 2 ≤ 0xFFE

/-- The byte of sprite row `r` (R111). -/
def State.spriteRow (s : State) (r : Nat) : Byte := s.mem.read ((s.i.toNat + r) % 4096)

/-- Whether the sprite that `DRW Vx, Vy, n` draws has a bit 1 at column `px` and row `py`, on the grid or off it (R111, R112): the
sprite is 8 columns wide from `V[x] mod 64` and `n` rows high from `V[y] mod 32`, and bit 7 of a row is its first column. -/
def State.SpriteAt (s : State) (x y : Reg) (n : Nibble) (px py : Nat) : Prop :=
  s.originX x ≤ px ∧ px < s.originX x + 8 ∧ s.originY y ≤ py ∧ py < s.originY y + n.toNat ∧
    (s.spriteRow (py - s.originY y)).getLsbD (7 - (px - s.originX x)) = true

/-- A position on the 64 x 32 grid (R34). -/
abbrev OnGrid (px py : Nat) : Prop := px < 64 ∧ py < 32

/-- The cell at column `px` and row `py`; off the grid there is none, and the answer is false (R34). -/
def State.cellAt (s : State) (px py : Nat) : Bool :=
  if h : px < 64 ∧ py < 32 then s.fb[64 * py + px]'(by omega) else false

/-- The word at PC is the jump to itself (R105). -/
def State.IdleLoop (s : State) : Prop :=
  s.halt = none ∧ s.Fetchable ∧ ∃ nnn : Addr12, s.decoded = .instr (.jp nnn) ∧ s.pc = nnn.setWidth 16

/-- Every field the spec names has its reset value under the parameters `p` (R41, R231), and so have the two fields of the model's own
that a claim may speak of, the parameters (log entry 2) and the held outputs (log entry 5). -/
def State.AsReset (s : State) (p : Params) : Prop :=
  (∀ a (h : a < 80), s.mem.read a = p.font[a]) ∧ (∀ a, 80 ≤ a → s.mem.read a = 0) ∧
  (∀ r, s.getV r = 0) ∧ s.i = 0 ∧ s.pc.toNat = 0x200 ∧
  s.sp.val = 0 ∧ (∀ j (h : j < 16), s.stack[j] = 0) ∧
  (∀ k (h : k < 2048), s.fb[k] = false) ∧ s.dt = 0 ∧ s.st = 0 ∧
  (∀ k (h : k < 16), s.key[k] = false) ∧ s.halt = none ∧ s.loaded = false ∧
  s.params = p ∧ s.out = { status := .ok, diag := .none, tone := false }

/-- Some session of the host, from a construction with some parameters, ends in the state (R105, R233). -/
def State.Reachable (s : State) : Prop := ∃ (p : Params) (moves : List HostMove), (State.resetWith p).session moves = s

end Sys2Proof.Machine
end

