-- ==== Sys2Proof/Certificates/Slice0/Obligations.lean ====
section
/-!
DEFINITION. The statements for the provers. An `exec` statement is about the execute phase: the state it starts from has PC past the
instruction's word (spec/10_state.md R25), so `s.pc - 2` is the address `a` the word was fetched from. A frame is written as an equation
of states: `t = { s with v := t.v }` says that nothing but the registers may differ.
-/

open Sys2Proof Sys2Proof.Machine

/-! ## Encoding -/

/-- Decode of encode is the instruction, for every instruction of the profile and every operand, and the rest of the bytes is left. -/
def Obligations.DecodeOfEncode : Prop :=
  ∀ (p : Profile) (i : Instr) (rest : List Byte), i.wellFormed p = true →
    decode p (encode i) = .instr i ∧ decodeBytes p (encodeBytes i ++ rest) = some (.instr i, rest)

/-- Every word an instruction is decoded from is that instruction's one encoding, and the instruction is of the profile. -/
def Obligations.EncodeOfDecode : Prop :=
  ∀ (p : Profile) (w : Word) (i : Instr), decode p w = .instr i → encode i = w ∧ i.wellFormed p = true

/-- The decoder agrees with the mask and match rows of the opcode table: exactly one row for an instruction word, none of the profile
for an unknown one (R78). -/
def Obligations.DecodeAgreesWithOpcodeTable : Prop :=
  ∀ (p : Profile) (w : Word),
    (∀ i, decode p w = .instr i →
      i.row ∈ opcodeTable ∧ i.row.matchesWord w = true ∧ p.includes i.row.profile = true ∧
        ∀ r ∈ opcodeTable, r.matchesWord w = true → r = i.row) ∧
    (∀ u, decode p w = .unknownOpcode u →
      u = w ∧ ∀ r ∈ opcodeTable, p.includes r.profile = true → r.matchesWord w = false)

/-- The words that are unknown opcodes of the base profile, by family (R79; families 5 and 9 by the spec's own decision D11, log
entry 12). -/
def Obligations.UnknownWordsOfBaseProfile : Prop :=
  ∀ w : Word, decode .base w = .unknownOpcode w ↔
    (w.extractLsb' 12 4 = 0x0 ∧ w ≠ 0x00E0 ∧ w ≠ 0x00EE) ∨
    (w.extractLsb' 12 4 = 0x5 ∧ w.extractLsb' 0 4 ≠ 0) ∨
    (w.extractLsb' 12 4 = 0x8 ∧ w.extractLsb' 0 4 ∈ ([0x5, 0x7, 0x8, 0x9, 0xA, 0xB, 0xC, 0xD, 0xF] : List Nibble)) ∨
    (w.extractLsb' 12 4 = 0x9 ∧ w.extractLsb' 0 4 ≠ 0) ∨
    w.extractLsb' 12 4 = 0xE ∨
    (w.extractLsb' 12 4 = 0xF ∧ w.extractLsb' 0 8 ∉ ([0x07, 0x15, 0x18, 0x1E, 0x55, 0x65] : List Byte))

/-- Words of the spec's own examples and vectors, an instruction word of every family that has instructions, decode to the instructions
they stand for. -/
def Obligations.SpecExampleWordsDecode : Prop :=
  decode .base 0x00E0 = .instr .cls ∧ decode .base 0x00EE = .instr .ret ∧ decode .base 0x1234 = .instr (.jp 0x234) ∧
  decode .base 0x2210 = .instr (.call 0x210) ∧ decode .base 0x3342 = .instr (.seByte 3 0x42) ∧
  decode .base 0x4342 = .instr (.sneByte 3 0x42) ∧ decode .base 0x5010 = .instr (.seReg 0 1) ∧
  decode .base 0x5121 = .unknownOpcode 0x5121 ∧ decode .base 0x6FAB = .instr (.ldByte 15 0xAB) ∧
  decode .base 0x7220 = .instr (.addByte 2 0x20) ∧
  decode .base 0x8014 = .instr (.addReg 0 1) ∧ decode .base 0x8125 = .unknownOpcode 0x8125 ∧
  decode .base 0x9010 = .instr (.sneReg 0 1) ∧ decode .base 0xA300 = .instr (.ldI 0x300) ∧
  decode .base 0xBFFF = .instr (.jpV0 0xFFF) ∧ decode .base 0xC30F = .instr (.rnd 3 0x0F) ∧
  decode .base 0xD012 = .instr (.drw 0 1 2) ∧
  decode .base 0xF155 = .instr (.storeRegs 1) ∧ decode .base 0xF218 = .instr (.ldStVx 2) ∧
  decode .base 0xE59E = .unknownOpcode 0xE59E ∧ decode .ext 0xE59E = .instr (.skp 5)

/-! ## The step -/

/-- A step runs the decoded instruction: on the state with PC advanced modulo 2^16, LOADED true and the outputs cleared; and then the
timers tick, unless the instruction raised a fatal error (R92, R93). -/
def Obligations.StepRunsDecodedInstruction : Prop :=
  ∀ (s t : State) (i : Instr), s.halt = none → s.Fetchable → s.decoded = .instr i →
    exec i { s with pc := s.pc + 2, loaded := true, out := { status := .ok, diag := .none, tone := false } } = .next t →
    (t.halt = none → step s = .next
      { t with dt := BitVec.ofNat 8 (t.dt.toNat - 1), st := BitVec.ofNat 8 (t.st.toNat - 1),
               out := { t.out with tone := decide (0 < t.st.toNat) } }) ∧
    (t.halt ≠ none → step s = .next t)

/-- An unknown opcode changes nothing but PC, the timers and LOADED, and is reported with its word and address (R98). -/
def Obligations.UnknownOpcodeOnlyAdvancesAndTicks : Prop :=
  ∀ (s : State) (w : Word), s.halt = none → s.Fetchable → s.decoded = .unknownOpcode w →
    step s = .next
      { s with pc := s.pc + 2, loaded := true, dt := BitVec.ofNat 8 (s.dt.toNat - 1), st := BitVec.ofNat 8 (s.st.toNat - 1),
               out := { status := .ok, diag := .unknownOpcode s.wordAtPc s.pc, tone := decide (0 < s.st.toNat) } }

/-- Every step ends in a next state, from every state: nothing is refused and nothing stops the model. -/
def Obligations.EveryStepCompletes : Prop :=
  ∀ s : State, ∃ t, step s = .next t

/-- A halted core returns the latched error and changes no state (R96, the spec's own decision D6, log entry 17). -/
def Obligations.HaltedStepChangesNothing : Prop :=
  ∀ (s : State) (e : Fatal), s.halt = some e →
    step s = .next { s with out := { status := .fatal e, diag := .none, tone := false } }

/-- Under MEM_OOB = fault, a fetch that touches an address at or above 4096 raises AddressOutOfRange at the first such address (R92;
the parameter is the spec's own decision D2, log entry 26). -/
def Obligations.FetchPastMemoryFaults : Prop :=
  ∀ s : State, s.halt = none → s.params.memOob = .fault → 4096 ≤ s.pc.toNat + 1 →
    step s = .next
      { s with halt := some (.addressOutOfRange (if s.pc.toNat < 4096 then 4096 else s.pc.toNat)), loaded := true,
               out := { status := .fatal (.addressOutOfRange (if s.pc.toNat < 4096 then 4096 else s.pc.toNat)),
                        diag := .none, tone := false } }

/-- No instruction is ever partially applied: a step that raises a fatal error leaves every piece of state as it was, but HALT, LOADED
and the step's outputs (R97, the spec's own decision D5, log entry 1). -/
def Obligations.FatalStepLeavesStateAsItWas : Prop :=
  ∀ (s t : State) (e : Fatal), s.halt = none → step s = .next t → t.halt = some e →
    t = { s with halt := some e, loaded := true, out := { status := .fatal e, diag := .none, tone := false } }

/-- Which step raises which fatal error (R202). -/
def Obligations.WhichStepRaisesWhichError : Prop :=
  ∀ (s t : State) (e : Fatal), s.halt = none → step s = .next t → t.halt = some e →
    ((∃ nnn, s.Fetchable ∧ s.decoded = .instr (.call nnn) ∧ s.sp.val = 16 ∧ e = .stackOverflow s.pc) ∨
     (s.Fetchable ∧ s.decoded = .instr .ret ∧ s.sp.val = 0 ∧ e = .stackUnderflow s.pc) ∨
     (∃ addr, s.params.memOob = .fault ∧ 4096 ≤ addr ∧ e = .addressOutOfRange addr ∧
        (¬ s.Fetchable ∨ (∃ x y n, s.decoded = .instr (.drw x y n)) ∨ (∃ x, s.decoded = .instr (.storeRegs x)) ∨
          (∃ x, s.decoded = .instr (.loadRegs x)) ∨ (∃ x, s.decoded = .instr (.storeBcd x)))) ∨
     (∃ px py x y n, s.params.drawOob = .fault ∧ (64 ≤ px ∨ 32 ≤ py) ∧ e = .drawOutOfBounds px py ∧
        s.Fetchable ∧ s.decoded = .instr (.drw x y n)))

/-- Every step that raises no fatal error ends with the tick of both timers, after its execute phase, and its tone is whether the sound
timer was nonzero at the tick (R210). -/
def Obligations.TimerTickEndsEveryCompletedStep : Prop :=
  ∀ s t : State, s.halt = none → step s = .next t → t.halt = none →
    ∃ u : State,
      ((∃ i, s.decoded = .instr i ∧
          exec i { s with pc := s.pc + 2, loaded := true, out := { status := .ok, diag := .none, tone := false } } = .next u) ∨
       (s.decoded = .unknownOpcode s.wordAtPc ∧ 
          u = { s with pc := s.pc + 2, loaded := true,
                       out := { status := .ok, diag := .unknownOpcode s.wordAtPc s.pc, tone := false } })) ∧
      t.dt.toNat = (if 0 < u.dt.toNat then u.dt.toNat - 1 else 0) ∧
      t.st.toNat = (if 0 < u.st.toNat then u.st.toNat - 1 else 0) ∧
      t = { u with dt := t.dt, st := t.st, out := { u.out with tone := decide (0 < u.st.toNat) } }

/-- Each timer counts down by one at every completed step whose instruction does not write it, and stays at 0 (R35, R212). -/
def Obligations.TimersCountCompletedSteps : Prop :=
  ∀ s t : State, s.halt = none → step s = .next t → t.halt = none →
    ((∀ x, s.decoded ≠ .instr (.ldDtVx x)) → t.dt.toNat = s.dt.toNat - 1) ∧
    ((∀ x, s.decoded ≠ .instr (.ldStVx x)) → t.st.toNat = s.st.toNat - 1)

/-- A self-jump is an idle loop: each step changes only the timers (and LOADED), reports nothing, and leaves an idle loop (R105, the
spec's own decision D32). -/
def Obligations.IdleLoopChangesOnlyTimers : Prop :=
  ∀ s : State, s.IdleLoop → ∃ t, step s = .next t ∧ t.IdleLoop ∧
    t = { s with dt := BitVec.ofNat 8 (s.dt.toNat - 1), st := BitVec.ofNat 8 (s.st.toNat - 1), loaded := true,
                 out := { status := .ok, diag := .none, tone := decide (0 < s.st.toNat) } }

/-! ## Invariants -/

/-- A step keeps memory canonical and the outputs in agreement with the latch, from every state that has both. -/
def Obligations.StepKeepsInvariant : Prop :=
  ∀ s t : State, s.Inv → step s = .next t → t.Inv

/-- Every construction, with any parameters, has the invariant. -/
def Obligations.ResetHasInvariant : Prop :=
  State.reset.Inv ∧ ∀ p : Params, (State.resetWith p).Inv

/-- Every state that any session of the host reaches has the invariant: canonical memory (log entry 6) and held outputs that agree with
the latch (log entries 1, 5), which are the model's own form; the moves of a session are those of R219 and reset. -/
def Obligations.ReachableStatesHaveInvariant : Prop :=
  ∀ s : State, s.Reachable → s.Inv

/-- PC stays even and in the program region, and so does every return address on the stack, as long as targets are good and no advance
passes 0xFFE (R28). -/
def Obligations.PcStaysEvenAndInProgram : Prop :=
  ∀ s t : State, s.halt = none → s.PcInv → s.StaysInProgram s.decoded → step s = .next t → t.PcInv

/-- Equal contents are equal data: two canonical memories that read alike are the same list. -/
def Obligations.CanonicalMemoriesReadAlikeAreEqual : Prop :=
  ∀ m m' : Memory, m.wf = true → m'.wf = true → (∀ a, m.read a = m'.read a) → m = m'

/-! ## Who writes what -/

/-- The framebuffer is changed only by 00E0 and DXYN (R34), I only by ANNN and FX1E (R29), the stack and its pointer only by 2NNN and
00EE, and 00EE leaves every slot as it was (R30; that a pop does not clear its slot is the spec's own decision D19, log entry 15). -/
def Obligations.FramebufferIndexAndStackWriters : Prop :=
  ∀ (i : Instr) (s t : State), exec i s = .next t →
    (i ≠ .cls → (∀ x y n, i ≠ .drw x y n) → t.fb = s.fb) ∧
    ((∀ nnn, i ≠ .ldI nnn) → (∀ x, i ≠ .addI x) → t.i = s.i) ∧
    ((∀ nnn, i ≠ .call nnn) → t.stack = s.stack) ∧
    ((∀ nnn, i ≠ .call nnn) → i ≠ .ret → t.sp = s.sp)

/-- Memory is changed only by FX55 and, under EXT, FX33 (R51). -/
def Obligations.OnlyStoresChangeMemory : Prop :=
  ∀ (i : Instr) (s t : State), exec i s = .next t → (∀ x, i ≠ .storeRegs x) → (∀ x, i ≠ .storeBcd x) → t.mem = s.mem

/-- A register is changed only by an instruction whose row of the register access table writes it (R23). -/
def Obligations.OnlyNamedRegistersChange : Prop :=
  ∀ (i : Instr) (s t : State) (r : Reg), exec i s = .next t → ¬ i.writesReg r → t.getV r = s.getV r

/-- The execute phase writes DT only by FX15 and ST only by FX18, and never the keypad (R36, R40). In the model's own fields, it never
writes the parameters (log entry 2), and only CXNN advances the count of draws (log entry 4). -/
def Obligations.TimersKeypadAndParametersWriters : Prop :=
  ∀ (i : Instr) (s t : State), exec i s = .next t →
    ((∀ x, i ≠ .ldDtVx x) → t.dt = s.dt) ∧ ((∀ x, i ≠ .ldStVx x) → t.st = s.st) ∧
    t.key = s.key ∧ t.params = s.params ∧ ((∀ x nn, i ≠ .rnd x nn) → t.draws = s.draws)

/-- An instruction that is no jump, call, return, skip or key wait leaves PC past its word, unless it raises an error (R26). -/
def Obligations.OtherInstructionsLeavePcAdvanced : Prop :=
  ∀ (i : Instr) (s t : State), s.halt = none → exec i s = .next t → t.halt = none → ¬ i.writesPc → t.pc = s.pc

/-! ## Isolation -/

/-- Under the base profile nothing a step does depends on the keypad: two states that differ in the keys alone step to states that
differ in the keys alone (R36). -/
def Obligations.BaseProfileNeverReadsKeypad : Prop :=
  ∀ (s t : State) (k : Vector Bool 16), s.params.profile = .base → step s = .next t →
    step { s with key := k } = .next { t with key := k }

/-- The random byte affects a CXNN step only, and FONT no step at all (R104, the spec's own decision D23; the count of draws is the
model's own, log entry 4). -/
def Obligations.RandomByteAffectsOnlyRndAndFontOnlyReset : Prop :=
  ∀ (s t : State) (n : Nat) (f : Vector Byte 80), step s = .next t →
    step { s with params := { s.params with font := f } } = .next { t with params := { t.params with font := f } } ∧
    ((s.halt = none → s.Fetchable → ∀ x nn, s.decoded ≠ .instr (.rnd x nn)) →
      t.draws = s.draws ∧ step { s with draws := n } = .next { t with draws := n })

/-! ## Display -/

/-- CLS clears every cell and changes nothing else (R110). -/
def Obligations.ClearScreen : Prop :=
  ∀ (p : Profile) (w : Word) (s : State),
    (decode p w = .instr .cls ↔ w = 0x00E0) ∧
    ∃ t, exec .cls s = .next t ∧ (∀ k (h : k < 2048), t.fb[k] = false) ∧ t = { s with fb := t.fb }

/-- DRW completes when its rows can be read and its bits are on the grid or clipped: it flips exactly the cells under the sprite's bits
1, VF is whether such a cell was 1, clipping is reported once, and nothing else changes (R111 to R113; the order of the reads and the
treatment of bits off the grid are the spec's own decisions D9 and D10, log entry 10; the word and the address reported are read from
the spec as log entry 21 says). -/
def Obligations.DrawFlipsExactlyTheSpriteBits : Prop :=
  ∀ (x y : Reg) (n : Nibble) (s : State),
    (∀ r < n.toNat, s.Reaches (s.i.toNat + r)) →
    (s.params.drawOob = .clip ∨ ∀ px py, s.SpriteAt x y n px py → OnGrid px py) →
    ∃ t, exec (.drw x y n) s = .next t ∧
      t = { s with v := t.v, fb := t.fb, out := { s.out with diag := t.out.diag } } ∧
      (∀ r, r ≠ 15 → t.getV r = s.getV r) ∧
      (∀ px py, OnGrid px py → s.SpriteAt x y n px py → t.cellAt px py = !s.cellAt px py) ∧
      (∀ px py, OnGrid px py → ¬ s.SpriteAt x y n px py → t.cellAt px py = s.cellAt px py) ∧
      ((∃ px py, OnGrid px py ∧ s.SpriteAt x y n px py ∧ s.cellAt px py = true) → t.getV 15 = 1) ∧
      ((¬ ∃ px py, OnGrid px py ∧ s.SpriteAt x y n px py ∧ s.cellAt px py = true) → t.getV 15 = 0) ∧
      ((∃ px py, ¬ OnGrid px py ∧ s.SpriteAt x y n px py) → t.out.diag = .drawClipped (encode (.drw x y n)) (s.pc - 2)) ∧
      ((¬ ∃ px py, ¬ OnGrid px py ∧ s.SpriteAt x y n px py) → t.out.diag = s.out.diag)

/-- Which error DRW raises under the fault settings: the first row that cannot be read, when no earlier row has a bit off the grid under
DRAW_OOB = fault; or the first bit off the grid, when its row and those before it can be read (R112, R206; decisions D2, D10, D29). -/
def Obligations.DrawRaisesFirstError : Prop :=
  ∀ (x y : Reg) (n : Nibble) (s : State),
    (∀ r, r < n.toNat → s.params.memOob = .fault → 4096 ≤ s.i.toNat + r → (∀ q < r, s.i.toNat + q < 4096) →
      (s.params.drawOob = .clip ∨ ∀ px py, s.SpriteAt x y n px py → py < s.originY y + r → OnGrid px py) →
      exec (.drw x y n) s = .next
        { s with pc := s.pc - 2, halt := some (.addressOutOfRange (s.i.toNat + r)), loaded := true,
                 out := { status := .fatal (.addressOutOfRange (s.i.toNat + r)), diag := .none, tone := false } }) ∧
    (∀ px py, s.params.drawOob = .fault → s.SpriteAt x y n px py → ¬ OnGrid px py →
      (∀ r ≤ py - s.originY y, s.Reaches (s.i.toNat + r)) →
      (∀ qx qy, s.SpriteAt x y n qx qy → (qy < py ∨ (qy = py ∧ qx < px)) → OnGrid qx qy) →
      exec (.drw x y n) s = .next
        { s with pc := s.pc - 2, halt := some (.drawOutOfBounds px py), loaded := true,
                 out := { status := .fatal (.drawOutOfBounds px py), diag := .none, tone := false } })

/-- Drawing the same sprite at the same place twice restores the framebuffer. The second VF follows R112: 1 exactly when some drawn bit
met a cell that was 0 before the first draw, and so 1 whenever a bit is drawn and the first draw met no cell that was 1; a sprite with no
bit drawn leaves VF = 0 on both draws. (R114 adds that it is 1 whenever a bit is drawn, which R112 gives only for such a cell: log
entry 27.) -/
def Obligations.DoubleDrawRestoresFramebuffer : Prop :=
  ∀ (x y : Reg) (n : Nibble) (s t : State),
    (∀ r < n.toNat, s.Reaches (s.i.toNat + r)) →
    (s.params.drawOob = .clip ∨ ∀ px py, s.SpriteAt x y n px py → OnGrid px py) →
    exec (.drw x y n) s = .next t → t.originX x = s.originX x → t.originY y = s.originY y →
    ∃ u, exec (.drw x y n) t = .next u ∧ u.fb = s.fb ∧
      ((∃ px py, OnGrid px py ∧ s.SpriteAt x y n px py ∧ s.cellAt px py = false) → u.getV 15 = 1) ∧
      ((¬ ∃ px py, OnGrid px py ∧ s.SpriteAt x y n px py ∧ s.cellAt px py = false) → u.getV 15 = 0) ∧
      ((∃ px py, OnGrid px py ∧ s.SpriteAt x y n px py) → t.getV 15 = 0 → u.getV 15 = 1) ∧
      ((¬ ∃ px py, OnGrid px py ∧ s.SpriteAt x y n px py) → t.getV 15 = 0 ∧ u.getV 15 = 0)

/-! ## Control transfer -/

/-- RET pops into PC and keeps the slot, or raises StackUnderflow with no effect (R120). -/
def Obligations.RetPopsOrUnderflows : Prop :=
  ∀ (p : Profile) (w : Word) (s : State),
    (decode p w = .instr .ret ↔ w = 0x00EE) ∧
    (∀ h : 0 < s.sp.val, ∃ t, exec .ret s = .next t ∧ t.sp.val + 1 = s.sp.val ∧ t.pc = s.stack[s.sp.val - 1] ∧
      t = { s with sp := t.sp, pc := t.pc }) ∧
    (s.sp.val = 0 → exec .ret s = .next
      { s with pc := s.pc - 2, halt := some (.stackUnderflow (s.pc - 2)), loaded := true,
               out := { status := .fatal (.stackUnderflow (s.pc - 2)), diag := .none, tone := false } })

/-- CALL pushes the address after itself and jumps, or raises StackOverflow with no effect (R122). -/
def Obligations.CallPushesOrOverflows : Prop :=
  ∀ (p : Profile) (w : Word) (nnn : Addr12) (s : State),
    (decode p w = .instr (.call nnn) ↔ w.extractLsb' 12 4 = 0x2 ∧ w.extractLsb' 0 12 = nnn) ∧
    (∀ h : s.sp.val < 16, ∃ t, exec (.call nnn) s = .next t ∧ t.sp.val = s.sp.val + 1 ∧ t.pc.toNat = nnn.toNat ∧
      t.stack[s.sp.val] = s.pc ∧ (∀ j (hj : j < 16), j ≠ s.sp.val → t.stack[j] = s.stack[j]) ∧
      t = { s with sp := t.sp, pc := t.pc, stack := t.stack }) ∧
    (s.sp.val = 16 → exec (.call nnn) s = .next
      { s with pc := s.pc - 2, halt := some (.stackOverflow (s.pc - 2)), loaded := true,
               out := { status := .fatal (.stackOverflow (s.pc - 2)), diag := .none, tone := false } })

/-- A jump takes its target as it is, NNN or NNN + V0, and changes nothing else (R121, R123). -/
def Obligations.JumpsTakeTargetAsIs : Prop :=
  ∀ (nnn : Addr12) (s : State),
    (∃ t, exec (.jp nnn) s = .next t ∧ t.pc.toNat = nnn.toNat ∧ t = { s with pc := t.pc }) ∧
    (∃ t, exec (.jpV0 nnn) s = .next t ∧ t.pc.toNat = nnn.toNat + (s.getV 0).toNat ∧ t = { s with pc := t.pc })

/-- A return from the stack a call left resumes after the call, with the stack pointer as before it (R124). -/
def Obligations.CallThenRetResumesAfterCall : Prop :=
  ∀ (nnn : Addr12) (s t u : State), s.sp.val < 16 → exec (.call nnn) s = .next t → u.sp = t.sp → u.stack = t.stack →
    ∃ w, exec .ret u = .next w ∧ w.pc = s.pc ∧ w.sp = s.sp ∧ w = { u with pc := w.pc, sp := w.sp }

/-! ## Skips -/

/-- SE and SNE with a byte: the words, the condition, and that PC alone changes (R131, R132). -/
def Obligations.SkipsOnByte : Prop :=
  ∀ (p : Profile) (w : Word) (x : Reg) (nn : Byte) (s : State),
    (decode p w = .instr (.seByte x nn) ↔ w.extractLsb' 12 4 = 0x3 ∧ (w.extractLsb' 8 4).toFin = x ∧ w.extractLsb' 0 8 = nn) ∧
    (decode p w = .instr (.sneByte x nn) ↔ w.extractLsb' 12 4 = 0x4 ∧ (w.extractLsb' 8 4).toFin = x ∧ w.extractLsb' 0 8 = nn) ∧
    (s.getV x = nn → exec (.seByte x nn) s = .next { s with pc := s.pc + 2 } ∧ exec (.sneByte x nn) s = .next s) ∧
    (s.getV x ≠ nn → exec (.seByte x nn) s = .next s ∧ exec (.sneByte x nn) s = .next { s with pc := s.pc + 2 })

/-- SE and SNE with a register: the condition, that PC alone changes, and that `X = Y` always and never skips (R133, R134). -/
def Obligations.SkipsOnRegister : Prop :=
  ∀ (p : Profile) (w : Word) (x y : Reg) (s : State),
    (decode p w = .instr (.seReg x y) ↔
      w.extractLsb' 12 4 = 0x5 ∧ w.extractLsb' 0 4 = 0x0 ∧ (w.extractLsb' 8 4).toFin = x ∧ (w.extractLsb' 4 4).toFin = y) ∧
    (decode p w = .instr (.sneReg x y) ↔
      w.extractLsb' 12 4 = 0x9 ∧ w.extractLsb' 0 4 = 0x0 ∧ (w.extractLsb' 8 4).toFin = x ∧ (w.extractLsb' 4 4).toFin = y) ∧
    (s.getV x = s.getV y → exec (.seReg x y) s = .next { s with pc := s.pc + 2 } ∧ exec (.sneReg x y) s = .next s) ∧
    (s.getV x ≠ s.getV y → exec (.seReg x y) s = .next s ∧ exec (.sneReg x y) s = .next { s with pc := s.pc + 2 })

/-! ## Register loads and arithmetic -/

/-- LD and ADD with a byte: `NN`, and the sum modulo 256 with no flag; no other register and nothing else changes (R140, R141). -/
def Obligations.LoadAndAddByte : Prop :=
  ∀ (p : Profile) (w : Word) (x : Reg) (nn : Byte) (s : State),
    (decode p w = .instr (.ldByte x nn) ↔ w.extractLsb' 12 4 = 0x6 ∧ (w.extractLsb' 8 4).toFin = x ∧ w.extractLsb' 0 8 = nn) ∧
    (decode p w = .instr (.addByte x nn) ↔ w.extractLsb' 12 4 = 0x7 ∧ (w.extractLsb' 8 4).toFin = x ∧ w.extractLsb' 0 8 = nn) ∧
    (∃ t, exec (.ldByte x nn) s = .next t ∧ t.getV x = nn ∧ (∀ r, r ≠ x → t.getV r = s.getV r) ∧ t = { s with v := t.v }) ∧
    (∃ t, exec (.addByte x nn) s = .next t ∧ (t.getV x).toNat = ((s.getV x).toNat + nn.toNat) % 256 ∧
      (∀ r, r ≠ x → t.getV r = s.getV r) ∧ t = { s with v := t.v })

/-- The copy and the three bitwise instructions: each bit of `V[x]`, no other register (VF among them), nothing else (R142 to R145). -/
def Obligations.CopyAndBitwise : Prop :=
  ∀ (p : Profile) (w : Word) (x y : Reg) (s : State),
    (∀ i n, (i, n) ∈ ([(.ldReg x y, 0x0), (.orReg x y, 0x1), (.andReg x y, 0x2), (.xorReg x y, 0x3)] : List (Instr × Nibble)) →
      (decode p w = .instr i ↔
        w.extractLsb' 12 4 = 0x8 ∧ w.extractLsb' 0 4 = n ∧ (w.extractLsb' 8 4).toFin = x ∧ (w.extractLsb' 4 4).toFin = y)) ∧
    (∃ t, exec (.ldReg x y) s = .next t ∧ t.getV x = s.getV y ∧ (∀ r, r ≠ x → t.getV r = s.getV r) ∧ t = { s with v := t.v }) ∧
    (∃ t, exec (.orReg x y) s = .next t ∧ (∀ b, (t.getV x).getLsbD b = ((s.getV x).getLsbD b || (s.getV y).getLsbD b)) ∧
      (∀ r, r ≠ x → t.getV r = s.getV r) ∧ t = { s with v := t.v }) ∧
    (∃ t, exec (.andReg x y) s = .next t ∧ (∀ b, (t.getV x).getLsbD b = ((s.getV x).getLsbD b && (s.getV y).getLsbD b)) ∧
      (∀ r, r ≠ x → t.getV r = s.getV r) ∧ t = { s with v := t.v }) ∧
    (∃ t, exec (.xorReg x y) s = .next t ∧ (∀ b, (t.getV x).getLsbD b = ((s.getV x).getLsbD b ^^ (s.getV y).getLsbD b)) ∧
      (∀ r, r ≠ x → t.getV r = s.getV r) ∧ t = { s with v := t.v })

/-- ADD Vx, Vy: the sum modulo 256 in `V[x]` and the carry, 0 or 1, in VF; with `x = 15` VF holds the sum and the carry is lost. Both
operands are the old ones (R146; clearing VF is the spec's own decision D7, log entry 9, and the order of the writes D8, log entry 8). -/
def Obligations.AddWithCarry : Prop :=
  ∀ (x y : Reg) (s : State), ∃ t, exec (.addReg x y) s = .next t ∧
    (t.getV x).toNat = ((s.getV x).toNat + (s.getV y).toNat) % 256 ∧
    (x ≠ 15 → (t.getV 15).toNat = ((s.getV x).toNat + (s.getV y).toNat) / 256) ∧
    (∀ r, r ≠ x → r ≠ 15 → t.getV r = s.getV r) ∧ t = { s with v := t.v }

/-- SHR and SHL: half and double of `V[x]`, and the bit shifted out in VF; with `x = 15` the flag is written first and then shifted. `Y`
makes no difference (R147, R148; the order of the writes is the spec's own decision D8, log entry 8). -/
def Obligations.ShiftsByOneBit : Prop :=
  ∀ (x y : Reg) (s : State),
    (∃ t, exec (.shr x y) s = .next t ∧
      (x ≠ 15 → (t.getV x).toNat = (s.getV x).toNat / 2 ∧ (t.getV 15).toNat = (s.getV x).toNat % 2) ∧
      (x = 15 → t.getV 15 = 0) ∧
      (∀ r, r ≠ x → r ≠ 15 → t.getV r = s.getV r) ∧ t = { s with v := t.v }) ∧
    (∃ t, exec (.shl x y) s = .next t ∧
      (x ≠ 15 → (t.getV x).toNat = 2 * (s.getV x).toNat % 256 ∧ (t.getV 15).toNat = (s.getV x).toNat / 128) ∧
      (x = 15 → (t.getV 15).toNat = 2 * ((s.getV 15).toNat / 128)) ∧
      (∀ r, r ≠ x → r ≠ 15 → t.getV r = s.getV r) ∧ t = { s with v := t.v }) ∧
    (∀ z, exec (.shr x z) s = exec (.shr x y) s ∧ exec (.shl x z) s = exec (.shl x y) s)

/-- RND: the byte drawn under the mask, whatever the byte is; one draw is counted (R149; the draws are the model's free value, log
entry 4). -/
def Obligations.RandomUnderMask : Prop :=
  ∀ (x : Reg) (nn : Byte) (s : State), ∃ t, exec (.rnd x nn) s = .next t ∧
    (∀ b, (t.getV x).getLsbD b = ((Config.randByte s.draws).getLsbD b && nn.getLsbD b)) ∧
    (∀ r, r ≠ x → t.getV r = s.getV r) ∧ t.draws = s.draws + 1 ∧ t = { s with v := t.v, draws := t.draws }

/-! ## Index register and memory -/

/-- LD I: the address as it is, nothing else (R160). -/
def Obligations.LoadIndex : Prop :=
  ∀ (p : Profile) (w : Word) (nnn : Addr12) (s : State),
    (decode p w = .instr (.ldI nnn) ↔ w.extractLsb' 12 4 = 0xA ∧ w.extractLsb' 0 12 = nnn) ∧
    ∃ t, exec (.ldI nnn) s = .next t ∧ t.i.toNat = nnn.toNat ∧ t = { s with i := t.i }

/-- ADD I, Vx: the sum modulo 2^16, no flag, nothing else (R161; the width of the sum is the spec's own decision D4, log entry 11). -/
def Obligations.AddIndex : Prop :=
  ∀ (x : Reg) (s : State), ∃ t, exec (.addI x) s = .next t ∧
    t.i.toNat = (s.i.toNat + (s.getV x).toNat) % 65536 ∧ t = { s with i := t.i }

/-- LD [I], Vx: `V[j]` at the effective address of `I + j` for every `j` up to `x`; every other byte, I and all else as before (R162; I
unchanged is the spec's own decision D18, log entry 14). -/
def Obligations.StoreRegisters : Prop :=
  ∀ (x : Reg) (s : State), s.mem.wf = true → s.Reaches (s.i.toNat + x.val) →
    ∃ t, exec (.storeRegs x) s = .next t ∧
      (∀ j : Reg, j ≤ x → t.mem.read ((s.i.toNat + j.val) % 4096) = s.getV j) ∧
      (∀ a, (∀ j : Reg, j ≤ x → a ≠ (s.i.toNat + j.val) % 4096) → t.mem.read a = s.mem.read a) ∧
      t = { s with mem := t.mem }

/-- LD Vx, [I]: `V[j]` from the effective address of `I + j` for every `j` up to `x`; the other registers, I and all else as before
(R163; decision D18, log entry 14). -/
def Obligations.LoadRegisters : Prop :=
  ∀ (x : Reg) (s : State), s.Reaches (s.i.toNat + x.val) →
    ∃ t, exec (.loadRegs x) s = .next t ∧
      (∀ j : Reg, j ≤ x → t.getV j = s.mem.read ((s.i.toNat + j.val) % 4096)) ∧
      (∀ j : Reg, x < j → t.getV j = s.getV j) ∧
      t = { s with v := t.v }

/-- Under MEM_OOB = fault a transfer past 0xFFF raises AddressOutOfRange at its first such address, and nothing is transferred (R162,
R163, R184; the parameter is the spec's own decision D2). -/
def Obligations.TransferPastMemoryFaults : Prop :=
  ∀ (x : Reg) (s : State), s.params.memOob = .fault →
    (∀ i last, (i, last) ∈ [(Instr.storeRegs x, x.val), (Instr.loadRegs x, x.val), (Instr.storeBcd x, 2)] →
      4096 ≤ s.i.toNat + last →
      exec i s = .next
        { s with pc := s.pc - 2, halt := some (.addressOutOfRange (max s.i.toNat 4096)), loaded := true,
                 out := { status := .fatal (.addressOutOfRange (max s.i.toNat 4096)), diag := .none, tone := false } })

/-- A byte that the step of LD [I], Vx or LD B, Vx stores is seen by a fetch made right after that step, from whatever PC: where the byte
lies at the first address fetched it is the high byte of the word, and at the second the low byte. With the PC the step left, that is the
fetch of the next step (R64; fetch coherence is the spec's own decision D24, log entry 18). -/
def Obligations.StoredBytesAreFetchedNext : Prop :=
  ∀ (s t : State) (i : Instr) (k : Nat) (b : Byte) (a : Word),
    s.mem.wf = true → s.halt = none → s.Fetchable → s.decoded = .instr i → i.storedByte s k = some b →
    step s = .next t → t.halt = none → { t with pc := a }.Fetchable →
    ∃ hi lo : Byte, { t with pc := a }.fetch = .ok (hi ++ lo) ∧
      ((s.i.toNat + k) % 4096 = a.toNat % 4096 → hi = b) ∧
      ((s.i.toNat + k) % 4096 = (a.toNat + 1) % 4096 → lo = b)

/-! ## Timers -/

/-- The three timer instructions, and nothing else changes in the execute phase (R170 to R172). -/
def Obligations.TimerAccess : Prop :=
  ∀ (p : Profile) (w : Word) (x : Reg) (s : State),
    (∀ i nn, (i, nn) ∈ ([(.ldVxDt x, 0x07), (.ldDtVx x, 0x15), (.ldStVx x, 0x18)] : List (Instr × Byte)) →
      (decode p w = .instr i ↔ w.extractLsb' 12 4 = 0xF ∧ w.extractLsb' 0 8 = nn ∧ (w.extractLsb' 8 4).toFin = x)) ∧
    (∃ t, exec (.ldVxDt x) s = .next t ∧ t.getV x = s.dt ∧ (∀ r, r ≠ x → t.getV r = s.getV r) ∧ t = { s with v := t.v }) ∧
    (∃ t, exec (.ldDtVx x) s = .next t ∧ t.dt = s.getV x ∧ t = { s with dt := t.dt }) ∧
    (∃ t, exec (.ldStVx x) s = .next t ∧ t.st = s.getV x ∧ t = { s with st := t.st })

/-- A timer written in a step is counted down by the tick of the same step; the tone is whether the value written is nonzero (R171,
R172). -/
def Obligations.TimerWriteIsTickedInTheSameStep : Prop :=
  ∀ (s : State) (x : Reg), s.halt = none → s.Fetchable →
    (s.decoded = .instr (.ldDtVx x) → ∃ t, step s = .next t ∧ t.dt.toNat = (s.getV x).toNat - 1 ∧ t.st.toNat = s.st.toNat - 1) ∧
    (s.decoded = .instr (.ldStVx x) → ∃ t, step s = .next t ∧ t.st.toNat = (s.getV x).toNat - 1 ∧ t.dt.toNat = s.dt.toNat - 1 ∧
      t.out.tone = decide (s.getV x ≠ 0)) ∧
    (s.decoded = .instr (.ldVxDt x) → ∃ t, step s = .next t ∧ t.getV x = s.dt ∧ t.dt.toNat = s.dt.toNat - 1)

/-- The tone of a completed step and the sound query after it differ exactly when the tick took ST from 1 to 0, and the tone is false
exactly when the tick met 0. `v` is the ST the execute phase left: what LD ST, Vx wrote, and in every other step the ST before it (R213,
R218, R172; two signals are the spec's own decision D25, log entry 19). -/
def Obligations.ToneAndSoundQueryDifferOnlyAtOne : Prop :=
  ∀ s t : State, s.halt = none → step s = .next t → t.halt = none →
    ∃ v : Byte,
      (∀ x, s.decoded = .instr (.ldStVx x) → v = s.getV x) ∧ ((∀ x, s.decoded ≠ .instr (.ldStVx x)) → v = s.st) ∧
      t.st.toNat = v.toNat - 1 ∧ (t.out.tone ≠ t.soundQuery ↔ v = 1) ∧ (t.out.tone = false ↔ v = 0)

/-! ## Extended profile (semantics from general knowledge, decisions D12 and D30, log entry 13) -/

/-- SKP and SKNP skip on the key that the low nibble of `V[x]` names, and PC alone changes (R181, R182). LD Vx, K takes the least pressed
key; with none pressed PC goes back to the word, and nothing else changes (R183). -/
def Obligations.KeypadInstructions : Prop :=
  ∀ (x : Reg) (s : State),
    (∀ k : Reg, k.val = (s.getV x).toNat % 16 →
      (s.key[k] = true → exec (.skp x) s = .next { s with pc := s.pc + 2 } ∧ exec (.sknp x) s = .next s) ∧
      (s.key[k] = false → exec (.skp x) s = .next s ∧ exec (.sknp x) s = .next { s with pc := s.pc + 2 })) ∧
    (∀ k : Reg, s.key[k] = true → (∀ q : Reg, q < k → s.key[q] = false) →
      ∃ t, exec (.waitKey x) s = .next t ∧ (t.getV x).toNat = k.val ∧ (∀ r, r ≠ x → t.getV r = s.getV r) ∧ t = { s with v := t.v }) ∧
    ((∀ k : Reg, s.key[k] = false) → exec (.waitKey x) s = .next { s with pc := s.pc - 2 })

/-- LD B, Vx stores three decimal digits whose number is `V[x]`; every other byte, I and all else as before (R184). -/
def Obligations.StoreDecimalDigits : Prop :=
  ∀ (x : Reg) (s : State), s.mem.wf = true → s.Reaches (s.i.toNat + 2) →
    ∃ t, exec (.storeBcd x) s = .next t ∧
      (∀ j < 3, (t.mem.read ((s.i.toNat + j) % 4096)).toNat < 10) ∧
      100 * (t.mem.read (s.i.toNat % 4096)).toNat + 10 * (t.mem.read ((s.i.toNat + 1) % 4096)).toNat +
        (t.mem.read ((s.i.toNat + 2) % 4096)).toNat = (s.getV x).toNat ∧
      (∀ a, (∀ j < 3, a ≠ (s.i.toNat + j) % 4096) → t.mem.read a = s.mem.read a) ∧
      t = { s with mem := t.mem }

/-- Under the base profile a word of an optional instruction is an unknown opcode, and its step does nothing but advance, tick and report
(R180). -/
def Obligations.BaseProfileGatesExtensions : Prop :=
  ∀ (s : State) (i : Instr), i.profile = .ext → s.params.profile = .base → s.halt = none → s.Fetchable → s.wordAtPc = encode i →
    ∃ t, step s = .next t ∧ t.out.status = .ok ∧ t.out.diag = .unknownOpcode (encode i) s.pc ∧ t.pc = s.pc + 2 ∧
      t = { s with pc := t.pc, dt := t.dt, st := t.st, loaded := true, out := t.out }

/-! ## Reset and the host -/

/-- What every reset leaves in every field the spec names: construction with any parameters, the default ones among them, and the reset
move of the host at any time, halted or not (R41, R230, R231). The values of I, SP, DT, ST, the keypad, HALT and LOADED are the spec's
own decisions D6, D13, D14, D15, D20 (log entry 7), that a reset may come at any time is D31 (log entry 22), and the parameters and the
held outputs are the model's own fields (log entries 2, 5). The count of draws, a field of the model's own, is not spoken of. -/
def Obligations.ResetLeavesEveryField : Prop :=
  State.reset = State.resetWith Config.params ∧ State.reset.AsReset Config.params ∧
  (∀ p : Params, (State.resetWith p).AsReset p) ∧
  (∀ s : State, (s.answer .reset).1 = .none ∧ (s.answer .reset).2.AsReset s.params)

/-- Load copies the bytes to 0x200 and on and sets LOADED, and changes nothing else; it refuses a program that is too large, or a load
after the first load or step, with no change (R101). -/
def Obligations.LoadCopiesProgram : Prop :=
  ∀ (s : State) (bytes : List Byte), s.mem.wf = true →
    (s.loaded = true → s.load bytes = (.loadRefused, s)) ∧
    (s.loaded = false → 4096 - 0x200 < bytes.length → s.load bytes = (.programTooLarge bytes.length, s)) ∧
    (s.loaded = false → bytes.length ≤ 4096 - 0x200 → ∃ t, s.load bytes = (.ok, t) ∧
      (∀ k (h : k < bytes.length), t.mem.read (0x200 + k) = bytes[k]) ∧
      (∀ a, (a < 0x200 ∨ 0x200 + bytes.length ≤ a) → t.mem.read a = s.mem.read a) ∧
      t = { s with mem := t.mem, loaded := true })

/-- After reset and a load, the first step fetches the first two program bytes, and the font table is as reset left it (R233). -/
def Obligations.FirstStepFetchesFirstProgramWord : Prop :=
  ∀ (p : Params) (hi lo : Byte) (rest : List Byte), rest.length ≤ 3582 →
    ∃ t, (State.resetWith p).load (hi :: lo :: rest) = (.ok, t) ∧ t.fetch = .ok (hi ++ lo) ∧ t.wordAtPc = hi ++ lo ∧
      (∀ a (h : a < 80), t.mem.read a = p.font[a])

/-- The host's accesses: the reply to the framebuffer read is the 2048 cells in their order, each as 0 or 1; a keypad write of any list
of keys leaves each key it names as its last pair for that key says, and changes no other key and nothing else; the reply to the sound
query is whether ST is nonzero; the two reads change nothing (R216 to R219; a write only between transactions is the spec's own decision
D15, a read at any point between them D26, log entry 24). -/
def Obligations.HostAccesses : Prop :=
  ∀ s : State,
    (∃ cells, s.answer .readFramebuffer = (.pixels cells, s) ∧ ∀ j (h : j < 2048), cells[j] = if s.fb[j] then 1 else 0) ∧
    s.answer .querySound = (.sound (decide (0 < s.st.toNat)), s) ∧
    (∀ keys : List (Reg × Bool), ∃ t, s.answer (.writeKeypad keys) = (.none, t) ∧
      (∀ q b before rest, keys = before ++ (q, b) :: rest → (∀ c, (q, c) ∉ rest) → t.key[q] = b) ∧
      (∀ q : Reg, (∀ b, (q, b) ∉ keys) → t.key[q] = s.key[q]) ∧
      t = { s with key := t.key })

/-- Only reset leaves the halted state: after any other moves the error is latched still, and nothing but the keypad and the outputs has
changed (R204, R205; the spec's own decision D6, log entry 17). -/
def Obligations.OnlyResetLeavesHalt : Prop :=
  ∀ (s : State) (e : Fatal) (moves : List HostMove), s.halt = some e → s.loaded = true → HostMove.reset ∉ moves →
    s.session moves = { s with key := (s.session moves).key, out := (s.session moves).out }
end

