-- ==== Sys2Proof/Laws/Memory.lean ====
section
/-!
SUPPORT. The laws of memory: what a read gives after a write, and that every memory operation keeps the canonical form.
-/
namespace Sys2Proof.Machine

@[simp] theorem Memory.read_nil (a : Nat) : Memory.read [] a = Memory.blank a := rfl

theorem Memory.read_cons (b : Nat) (u : Byte) (m : Memory) (a : Nat) :
    Memory.read ((b, u) :: m) a = if a = b then u else Memory.read m a := rfl

/-- Below the least listed address everything is blank. -/
theorem Memory.read_below (m : Memory) (lo a : Nat) (h : Memory.wfFrom lo m = true) (ha : a < lo) : m.read a = Memory.blank a := by
  induction m generalizing lo with
  | nil => rfl
  | cons c m ih =>
    obtain ⟨b, u⟩ := c
    simp only [Memory.wfFrom, Bool.and_eq_true, decide_eq_true_eq] at h
    obtain ⟨⟨⟨hlo, -⟩, -⟩, hm⟩ := h
    rw [Memory.read_cons, if_neg (by omega)]
    exact ih (b + 1) hm (by omega)

theorem Memory.wfFrom_mono (m : Memory) (lo lo' : Nat) (h : Memory.wfFrom lo m = true) (hl : lo' ≤ lo) :
    Memory.wfFrom lo' m = true := by
  cases m with
  | nil => rfl
  | cons c m =>
    obtain ⟨b, u⟩ := c
    simp only [Memory.wfFrom, Bool.and_eq_true, decide_eq_true_eq] at h ⊢
    exact ⟨⟨⟨by omega, h.1.1.2⟩, h.1.2⟩, h.2⟩

/-- A write in a canonical memory keeps the canonical form. -/
theorem Memory.write_wfFrom (m : Memory) (lo a : Nat) (u : Byte) (h : Memory.wfFrom lo m = true) (hlo : lo ≤ a) (ha : a < 4096) :
    Memory.wfFrom lo (m.write a u) = true := by
  induction m generalizing lo with
  | nil =>
    rw [Memory.write]
    split
    · rfl
    · next hu => simp [Memory.wfFrom, hlo, ha, hu]
  | cons c m ih =>
    obtain ⟨b, w⟩ := c
    have h' := h
    simp only [Memory.wfFrom, Bool.and_eq_true, decide_eq_true_eq] at h'
    obtain ⟨⟨⟨hb, hb4⟩, hw⟩, hm⟩ := h'
    rw [Memory.write]
    split
    · split
      · exact h
      · next hab hu => simp [Memory.wfFrom, hlo, ha, hu, hb4, hw, hm]; omega
    · split
      · next hab hEq =>
        subst hEq
        split
        · exact Memory.wfFrom_mono m _ _ hm (by omega)
        · next hu => simp [Memory.wfFrom, hlo, ha, hu, hm]
      · next hab hne => simp [Memory.wfFrom, hb, hb4, hw, ih (b + 1) hm (by omega)]

/-- A write in a canonical memory keeps the canonical form. -/
theorem Memory.write_wf (m : Memory) (a : Nat) (u : Byte) (h : m.wf = true) (ha : a < 4096) : (m.write a u).wf = true :=
  Memory.write_wfFrom m 0 a u h (Nat.zero_le a) ha

/-- What a read gives after a write in a canonical memory. -/
theorem Memory.read_write_from (m : Memory) (lo a b : Nat) (u : Byte) (h : Memory.wfFrom lo m = true) :
    (m.write a u).read b = if b = a then u else m.read b := by
  induction m generalizing lo with
  | nil =>
    rw [Memory.write]
    split
    · next hu => split <;> simp_all
    · rw [Memory.read_cons]
  | cons c m ih =>
    obtain ⟨d, w⟩ := c
    have h' := h
    simp only [Memory.wfFrom, Bool.and_eq_true, decide_eq_true_eq] at h'
    obtain ⟨⟨⟨hd, hd4⟩, hw⟩, hm⟩ := h'
    rw [Memory.write]
    split
    · next had =>
      split
      · next hu =>
        split
        · next hba =>
          subst hba
          rw [hu]
          exact Memory.read_below ((d, w) :: m) d b (Memory.wfFrom_mono _ _ _ (by simp [Memory.wfFrom, hd4, hw, hm]) (Nat.le_refl d)) had
        · rfl
      · rw [Memory.read_cons]
    · split
      · next had had' =>
        subst had'
        split
        · next hu =>
          rw [Memory.read_cons]
          split
          · next hba => subst hba; rw [hu]; exact Memory.read_below m (b + 1) b hm (by omega)
          · rfl
        · rw [Memory.read_cons, Memory.read_cons]
          split <;> simp_all
      · next had hne =>
        rw [Memory.read_cons, ih (d + 1) hm, Memory.read_cons]
        split
        · next hbd => rw [if_neg (by omega)]
        · rfl

/-- What a read gives after a write in a canonical memory. -/
theorem Memory.read_write (m : Memory) (a b : Nat) (u : Byte) (h : m.wf = true) :
    (m.write a u).read b = if b = a then u else m.read b :=
  Memory.read_write_from m 0 a b u h

/-- A list of bytes written below 4096 keeps the canonical form. -/
theorem Memory.writeList_wf (us : List Byte) (m : Memory) (a : Nat) (h : m.wf = true) (ha : a + us.length ≤ 4096) :
    (m.writeList a us).wf = true := by
  induction us generalizing m a with
  | nil => exact h
  | cons u us ih =>
    simp only [List.length_cons] at ha
    exact ih (m.write a u) (a + 1) (m.write_wf a u h (by omega)) (by omega)

/-- What a read gives after a list of bytes is written. -/
theorem Memory.read_writeList (us : List Byte) (m : Memory) (a b : Nat) (h : m.wf = true) (ha : a + us.length ≤ 4096) :
    (m.writeList a us).read b = if h : a ≤ b ∧ b < a + us.length then us[b - a]'(by omega) else m.read b := by
  induction us generalizing m a with
  | nil => rw [dif_neg (by simp)]; rfl
  | cons u us ih =>
    simp only [List.length_cons] at ha
    have hw : (m.write a u).wf = true := m.write_wf a u h (by omega)
    rw [Memory.writeList, ih (m.write a u) (a + 1) hw (by omega)]
    by_cases hb : a + 1 ≤ b ∧ b < a + 1 + us.length
    · rw [dif_pos hb, dif_pos (by simp; omega)]
      have : b - a = (b - (a + 1)) + 1 := by omega
      simp [this]
    · rw [dif_neg hb, m.read_write a b u h]
      by_cases hba : b = a
      · subst hba; simp
      · rw [if_neg hba, dif_neg (by simp; omega)]

/-- The memory of every reset is canonical. -/
theorem Memory.ofFont_wf (font : Vector Byte 80) : (Memory.ofFont font).wf = true :=
  Memory.writeList_wf font.toList [] 0 rfl (by simp)

/-- Memory after reset reads as the font and, above it, 0. -/
theorem Memory.read_ofFont (font : Vector Byte 80) (a : Nat) : (Memory.ofFont font).read a = if h : a < 80 then font[a] else 0 := by
  rw [Memory.ofFont, Memory.read_writeList _ _ _ _ rfl (by simp)]
  by_cases h : a < 80
  · rw [dif_pos (by simpa using h), dif_pos h]; simp
  · rw [dif_neg (by simpa using h), dif_neg h]; simp [Memory.blank, h]

/-- The memory of `State.reset` is canonical. -/
theorem Memory.reset_wf : State.reset.mem.wf = true := rfl

end Sys2Proof.Machine
end

