-- ==== Sys2Proof/Laws/State.lean ====
section
/-!
SUPPORT. For each update of a state, what each field is after it: one lemma a field, true by `rfl`, for `simp`.
-/
namespace Sys2Proof.Machine

variable (s : State)

/-! ## `setI` -/

@[simp] theorem State.setI_v (w : Word) : (s.setI w).v = s.v := rfl
@[simp] theorem State.setI_i (w : Word) : (s.setI w).i = w := rfl
@[simp] theorem State.setI_pc (w : Word) : (s.setI w).pc = s.pc := rfl
@[simp] theorem State.setI_sp (w : Word) : (s.setI w).sp = s.sp := rfl
@[simp] theorem State.setI_stack (w : Word) : (s.setI w).stack = s.stack := rfl
@[simp] theorem State.setI_mem (w : Word) : (s.setI w).mem = s.mem := rfl
@[simp] theorem State.setI_fb (w : Word) : (s.setI w).fb = s.fb := rfl
@[simp] theorem State.setI_dt (w : Word) : (s.setI w).dt = s.dt := rfl
@[simp] theorem State.setI_st (w : Word) : (s.setI w).st = s.st := rfl
@[simp] theorem State.setI_key (w : Word) : (s.setI w).key = s.key := rfl
@[simp] theorem State.setI_halt (w : Word) : (s.setI w).halt = s.halt := rfl
@[simp] theorem State.setI_loaded (w : Word) : (s.setI w).loaded = s.loaded := rfl
@[simp] theorem State.setI_params (w : Word) : (s.setI w).params = s.params := rfl
@[simp] theorem State.setI_out (w : Word) : (s.setI w).out = s.out := rfl
@[simp] theorem State.setI_draws (w : Word) : (s.setI w).draws = s.draws := rfl
@[simp] theorem State.setI_getV (w : Word) (r : Reg) : (s.setI w).getV r = s.getV r := rfl

/-! ## `setPc` -/

@[simp] theorem State.setPc_v (w : Word) : (s.setPc w).v = s.v := rfl
@[simp] theorem State.setPc_i (w : Word) : (s.setPc w).i = s.i := rfl
@[simp] theorem State.setPc_pc (w : Word) : (s.setPc w).pc = w := rfl
@[simp] theorem State.setPc_sp (w : Word) : (s.setPc w).sp = s.sp := rfl
@[simp] theorem State.setPc_stack (w : Word) : (s.setPc w).stack = s.stack := rfl
@[simp] theorem State.setPc_mem (w : Word) : (s.setPc w).mem = s.mem := rfl
@[simp] theorem State.setPc_fb (w : Word) : (s.setPc w).fb = s.fb := rfl
@[simp] theorem State.setPc_dt (w : Word) : (s.setPc w).dt = s.dt := rfl
@[simp] theorem State.setPc_st (w : Word) : (s.setPc w).st = s.st := rfl
@[simp] theorem State.setPc_key (w : Word) : (s.setPc w).key = s.key := rfl
@[simp] theorem State.setPc_halt (w : Word) : (s.setPc w).halt = s.halt := rfl
@[simp] theorem State.setPc_loaded (w : Word) : (s.setPc w).loaded = s.loaded := rfl
@[simp] theorem State.setPc_params (w : Word) : (s.setPc w).params = s.params := rfl
@[simp] theorem State.setPc_out (w : Word) : (s.setPc w).out = s.out := rfl
@[simp] theorem State.setPc_draws (w : Word) : (s.setPc w).draws = s.draws := rfl
@[simp] theorem State.setPc_getV (w : Word) (r : Reg) : (s.setPc w).getV r = s.getV r := rfl

/-! ## `setDt` -/

@[simp] theorem State.setDt_v (b : Byte) : (s.setDt b).v = s.v := rfl
@[simp] theorem State.setDt_i (b : Byte) : (s.setDt b).i = s.i := rfl
@[simp] theorem State.setDt_pc (b : Byte) : (s.setDt b).pc = s.pc := rfl
@[simp] theorem State.setDt_sp (b : Byte) : (s.setDt b).sp = s.sp := rfl
@[simp] theorem State.setDt_stack (b : Byte) : (s.setDt b).stack = s.stack := rfl
@[simp] theorem State.setDt_mem (b : Byte) : (s.setDt b).mem = s.mem := rfl
@[simp] theorem State.setDt_fb (b : Byte) : (s.setDt b).fb = s.fb := rfl
@[simp] theorem State.setDt_dt (b : Byte) : (s.setDt b).dt = b := rfl
@[simp] theorem State.setDt_st (b : Byte) : (s.setDt b).st = s.st := rfl
@[simp] theorem State.setDt_key (b : Byte) : (s.setDt b).key = s.key := rfl
@[simp] theorem State.setDt_halt (b : Byte) : (s.setDt b).halt = s.halt := rfl
@[simp] theorem State.setDt_loaded (b : Byte) : (s.setDt b).loaded = s.loaded := rfl
@[simp] theorem State.setDt_params (b : Byte) : (s.setDt b).params = s.params := rfl
@[simp] theorem State.setDt_out (b : Byte) : (s.setDt b).out = s.out := rfl
@[simp] theorem State.setDt_draws (b : Byte) : (s.setDt b).draws = s.draws := rfl
@[simp] theorem State.setDt_getV (b : Byte) (r : Reg) : (s.setDt b).getV r = s.getV r := rfl

/-! ## `setSt` -/

@[simp] theorem State.setSt_v (b : Byte) : (s.setSt b).v = s.v := rfl
@[simp] theorem State.setSt_i (b : Byte) : (s.setSt b).i = s.i := rfl
@[simp] theorem State.setSt_pc (b : Byte) : (s.setSt b).pc = s.pc := rfl
@[simp] theorem State.setSt_sp (b : Byte) : (s.setSt b).sp = s.sp := rfl
@[simp] theorem State.setSt_stack (b : Byte) : (s.setSt b).stack = s.stack := rfl
@[simp] theorem State.setSt_mem (b : Byte) : (s.setSt b).mem = s.mem := rfl
@[simp] theorem State.setSt_fb (b : Byte) : (s.setSt b).fb = s.fb := rfl
@[simp] theorem State.setSt_dt (b : Byte) : (s.setSt b).dt = s.dt := rfl
@[simp] theorem State.setSt_st (b : Byte) : (s.setSt b).st = b := rfl
@[simp] theorem State.setSt_key (b : Byte) : (s.setSt b).key = s.key := rfl
@[simp] theorem State.setSt_halt (b : Byte) : (s.setSt b).halt = s.halt := rfl
@[simp] theorem State.setSt_loaded (b : Byte) : (s.setSt b).loaded = s.loaded := rfl
@[simp] theorem State.setSt_params (b : Byte) : (s.setSt b).params = s.params := rfl
@[simp] theorem State.setSt_out (b : Byte) : (s.setSt b).out = s.out := rfl
@[simp] theorem State.setSt_draws (b : Byte) : (s.setSt b).draws = s.draws := rfl
@[simp] theorem State.setSt_getV (b : Byte) (r : Reg) : (s.setSt b).getV r = s.getV r := rfl

/-! ## `setMem` -/

@[simp] theorem State.setMem_v (m : Memory) : (s.setMem m).v = s.v := rfl
@[simp] theorem State.setMem_i (m : Memory) : (s.setMem m).i = s.i := rfl
@[simp] theorem State.setMem_pc (m : Memory) : (s.setMem m).pc = s.pc := rfl
@[simp] theorem State.setMem_sp (m : Memory) : (s.setMem m).sp = s.sp := rfl
@[simp] theorem State.setMem_stack (m : Memory) : (s.setMem m).stack = s.stack := rfl
@[simp] theorem State.setMem_mem (m : Memory) : (s.setMem m).mem = m := rfl
@[simp] theorem State.setMem_fb (m : Memory) : (s.setMem m).fb = s.fb := rfl
@[simp] theorem State.setMem_dt (m : Memory) : (s.setMem m).dt = s.dt := rfl
@[simp] theorem State.setMem_st (m : Memory) : (s.setMem m).st = s.st := rfl
@[simp] theorem State.setMem_key (m : Memory) : (s.setMem m).key = s.key := rfl
@[simp] theorem State.setMem_halt (m : Memory) : (s.setMem m).halt = s.halt := rfl
@[simp] theorem State.setMem_loaded (m : Memory) : (s.setMem m).loaded = s.loaded := rfl
@[simp] theorem State.setMem_params (m : Memory) : (s.setMem m).params = s.params := rfl
@[simp] theorem State.setMem_out (m : Memory) : (s.setMem m).out = s.out := rfl
@[simp] theorem State.setMem_draws (m : Memory) : (s.setMem m).draws = s.draws := rfl
@[simp] theorem State.setMem_getV (m : Memory) (r : Reg) : (s.setMem m).getV r = s.getV r := rfl

/-! ## `setFb` -/

@[simp] theorem State.setFb_v (f : Framebuffer) : (s.setFb f).v = s.v := rfl
@[simp] theorem State.setFb_i (f : Framebuffer) : (s.setFb f).i = s.i := rfl
@[simp] theorem State.setFb_pc (f : Framebuffer) : (s.setFb f).pc = s.pc := rfl
@[simp] theorem State.setFb_sp (f : Framebuffer) : (s.setFb f).sp = s.sp := rfl
@[simp] theorem State.setFb_stack (f : Framebuffer) : (s.setFb f).stack = s.stack := rfl
@[simp] theorem State.setFb_mem (f : Framebuffer) : (s.setFb f).mem = s.mem := rfl
@[simp] theorem State.setFb_fb (f : Framebuffer) : (s.setFb f).fb = f := rfl
@[simp] theorem State.setFb_dt (f : Framebuffer) : (s.setFb f).dt = s.dt := rfl
@[simp] theorem State.setFb_st (f : Framebuffer) : (s.setFb f).st = s.st := rfl
@[simp] theorem State.setFb_key (f : Framebuffer) : (s.setFb f).key = s.key := rfl
@[simp] theorem State.setFb_halt (f : Framebuffer) : (s.setFb f).halt = s.halt := rfl
@[simp] theorem State.setFb_loaded (f : Framebuffer) : (s.setFb f).loaded = s.loaded := rfl
@[simp] theorem State.setFb_params (f : Framebuffer) : (s.setFb f).params = s.params := rfl
@[simp] theorem State.setFb_out (f : Framebuffer) : (s.setFb f).out = s.out := rfl
@[simp] theorem State.setFb_draws (f : Framebuffer) : (s.setFb f).draws = s.draws := rfl
@[simp] theorem State.setFb_getV (f : Framebuffer) (r : Reg) : (s.setFb f).getV r = s.getV r := rfl

/-! ## `setV` -/

@[simp] theorem State.setV_v (r : Reg) (b : Byte) : (s.setV r b).v = s.v.set r b := rfl
@[simp] theorem State.setV_i (r : Reg) (b : Byte) : (s.setV r b).i = s.i := rfl
@[simp] theorem State.setV_pc (r : Reg) (b : Byte) : (s.setV r b).pc = s.pc := rfl
@[simp] theorem State.setV_sp (r : Reg) (b : Byte) : (s.setV r b).sp = s.sp := rfl
@[simp] theorem State.setV_stack (r : Reg) (b : Byte) : (s.setV r b).stack = s.stack := rfl
@[simp] theorem State.setV_mem (r : Reg) (b : Byte) : (s.setV r b).mem = s.mem := rfl
@[simp] theorem State.setV_fb (r : Reg) (b : Byte) : (s.setV r b).fb = s.fb := rfl
@[simp] theorem State.setV_dt (r : Reg) (b : Byte) : (s.setV r b).dt = s.dt := rfl
@[simp] theorem State.setV_st (r : Reg) (b : Byte) : (s.setV r b).st = s.st := rfl
@[simp] theorem State.setV_key (r : Reg) (b : Byte) : (s.setV r b).key = s.key := rfl
@[simp] theorem State.setV_halt (r : Reg) (b : Byte) : (s.setV r b).halt = s.halt := rfl
@[simp] theorem State.setV_loaded (r : Reg) (b : Byte) : (s.setV r b).loaded = s.loaded := rfl
@[simp] theorem State.setV_params (r : Reg) (b : Byte) : (s.setV r b).params = s.params := rfl
@[simp] theorem State.setV_out (r : Reg) (b : Byte) : (s.setV r b).out = s.out := rfl
@[simp] theorem State.setV_draws (r : Reg) (b : Byte) : (s.setV r b).draws = s.draws := rfl

/-! ## `countDraw` -/

@[simp] theorem State.countDraw_v : (s.countDraw).v = s.v := rfl
@[simp] theorem State.countDraw_i : (s.countDraw).i = s.i := rfl
@[simp] theorem State.countDraw_pc : (s.countDraw).pc = s.pc := rfl
@[simp] theorem State.countDraw_sp : (s.countDraw).sp = s.sp := rfl
@[simp] theorem State.countDraw_stack : (s.countDraw).stack = s.stack := rfl
@[simp] theorem State.countDraw_mem : (s.countDraw).mem = s.mem := rfl
@[simp] theorem State.countDraw_fb : (s.countDraw).fb = s.fb := rfl
@[simp] theorem State.countDraw_dt : (s.countDraw).dt = s.dt := rfl
@[simp] theorem State.countDraw_st : (s.countDraw).st = s.st := rfl
@[simp] theorem State.countDraw_key : (s.countDraw).key = s.key := rfl
@[simp] theorem State.countDraw_halt : (s.countDraw).halt = s.halt := rfl
@[simp] theorem State.countDraw_loaded : (s.countDraw).loaded = s.loaded := rfl
@[simp] theorem State.countDraw_params : (s.countDraw).params = s.params := rfl
@[simp] theorem State.countDraw_out : (s.countDraw).out = s.out := rfl
@[simp] theorem State.countDraw_draws : (s.countDraw).draws = s.draws + 1 := rfl
@[simp] theorem State.countDraw_getV (r : Reg) : (s.countDraw).getV r = s.getV r := rfl

/-! ## `report` -/

@[simp] theorem State.report_v (d : Diag) : (s.report d).v = s.v := rfl
@[simp] theorem State.report_i (d : Diag) : (s.report d).i = s.i := rfl
@[simp] theorem State.report_pc (d : Diag) : (s.report d).pc = s.pc := rfl
@[simp] theorem State.report_sp (d : Diag) : (s.report d).sp = s.sp := rfl
@[simp] theorem State.report_stack (d : Diag) : (s.report d).stack = s.stack := rfl
@[simp] theorem State.report_mem (d : Diag) : (s.report d).mem = s.mem := rfl
@[simp] theorem State.report_fb (d : Diag) : (s.report d).fb = s.fb := rfl
@[simp] theorem State.report_dt (d : Diag) : (s.report d).dt = s.dt := rfl
@[simp] theorem State.report_st (d : Diag) : (s.report d).st = s.st := rfl
@[simp] theorem State.report_key (d : Diag) : (s.report d).key = s.key := rfl
@[simp] theorem State.report_halt (d : Diag) : (s.report d).halt = s.halt := rfl
@[simp] theorem State.report_loaded (d : Diag) : (s.report d).loaded = s.loaded := rfl
@[simp] theorem State.report_params (d : Diag) : (s.report d).params = s.params := rfl
@[simp] theorem State.report_out (d : Diag) : (s.report d).out = { s.out with diag := d } := rfl
@[simp] theorem State.report_draws (d : Diag) : (s.report d).draws = s.draws := rfl
@[simp] theorem State.report_getV (d : Diag) (r : Reg) : (s.report d).getV r = s.getV r := rfl

/-! ## `takeFatal` -/

@[simp] theorem State.takeFatal_v (e : Fatal) : (s.takeFatal e).v = s.v := rfl
@[simp] theorem State.takeFatal_i (e : Fatal) : (s.takeFatal e).i = s.i := rfl
@[simp] theorem State.takeFatal_pc (e : Fatal) : (s.takeFatal e).pc = s.pc := rfl
@[simp] theorem State.takeFatal_sp (e : Fatal) : (s.takeFatal e).sp = s.sp := rfl
@[simp] theorem State.takeFatal_stack (e : Fatal) : (s.takeFatal e).stack = s.stack := rfl
@[simp] theorem State.takeFatal_mem (e : Fatal) : (s.takeFatal e).mem = s.mem := rfl
@[simp] theorem State.takeFatal_fb (e : Fatal) : (s.takeFatal e).fb = s.fb := rfl
@[simp] theorem State.takeFatal_dt (e : Fatal) : (s.takeFatal e).dt = s.dt := rfl
@[simp] theorem State.takeFatal_st (e : Fatal) : (s.takeFatal e).st = s.st := rfl
@[simp] theorem State.takeFatal_key (e : Fatal) : (s.takeFatal e).key = s.key := rfl
@[simp] theorem State.takeFatal_halt (e : Fatal) : (s.takeFatal e).halt = some e := rfl
@[simp] theorem State.takeFatal_loaded (e : Fatal) : (s.takeFatal e).loaded = true := rfl
@[simp] theorem State.takeFatal_params (e : Fatal) : (s.takeFatal e).params = s.params := rfl
@[simp] theorem State.takeFatal_out (e : Fatal) : (s.takeFatal e).out = { status := .fatal e, diag := .none, tone := false } := rfl
@[simp] theorem State.takeFatal_draws (e : Fatal) : (s.takeFatal e).draws = s.draws := rfl
@[simp] theorem State.takeFatal_getV (e : Fatal) (r : Reg) : (s.takeFatal e).getV r = s.getV r := rfl

/-! ## `beginStep` -/

@[simp] theorem State.beginStep_v : (s.beginStep).v = s.v := rfl
@[simp] theorem State.beginStep_i : (s.beginStep).i = s.i := rfl
@[simp] theorem State.beginStep_pc : (s.beginStep).pc = s.pc + 2 := rfl
@[simp] theorem State.beginStep_sp : (s.beginStep).sp = s.sp := rfl
@[simp] theorem State.beginStep_stack : (s.beginStep).stack = s.stack := rfl
@[simp] theorem State.beginStep_mem : (s.beginStep).mem = s.mem := rfl
@[simp] theorem State.beginStep_fb : (s.beginStep).fb = s.fb := rfl
@[simp] theorem State.beginStep_dt : (s.beginStep).dt = s.dt := rfl
@[simp] theorem State.beginStep_st : (s.beginStep).st = s.st := rfl
@[simp] theorem State.beginStep_key : (s.beginStep).key = s.key := rfl
@[simp] theorem State.beginStep_halt : (s.beginStep).halt = s.halt := rfl
@[simp] theorem State.beginStep_loaded : (s.beginStep).loaded = true := rfl
@[simp] theorem State.beginStep_params : (s.beginStep).params = s.params := rfl
@[simp] theorem State.beginStep_out : (s.beginStep).out = { status := .ok, diag := .none, tone := false } := rfl
@[simp] theorem State.beginStep_draws : (s.beginStep).draws = s.draws := rfl
@[simp] theorem State.beginStep_getV (r : Reg) : (s.beginStep).getV r = s.getV r := rfl

/-! ## `tick` -/

@[simp] theorem State.tick_v : (s.tick).v = s.v := rfl
@[simp] theorem State.tick_i : (s.tick).i = s.i := rfl
@[simp] theorem State.tick_pc : (s.tick).pc = s.pc := rfl
@[simp] theorem State.tick_sp : (s.tick).sp = s.sp := rfl
@[simp] theorem State.tick_stack : (s.tick).stack = s.stack := rfl
@[simp] theorem State.tick_mem : (s.tick).mem = s.mem := rfl
@[simp] theorem State.tick_fb : (s.tick).fb = s.fb := rfl
@[simp] theorem State.tick_dt : (s.tick).dt = countDown s.dt := rfl
@[simp] theorem State.tick_st : (s.tick).st = countDown s.st := rfl
@[simp] theorem State.tick_key : (s.tick).key = s.key := rfl
@[simp] theorem State.tick_halt : (s.tick).halt = s.halt := rfl
@[simp] theorem State.tick_loaded : (s.tick).loaded = s.loaded := rfl
@[simp] theorem State.tick_params : (s.tick).params = s.params := rfl
@[simp] theorem State.tick_out : (s.tick).out = { s.out with tone := s.st != 0 } := rfl
@[simp] theorem State.tick_draws : (s.tick).draws = s.draws := rfl
@[simp] theorem State.tick_getV (r : Reg) : (s.tick).getV r = s.getV r := rfl

/-! ## `stepHalted` -/

@[simp] theorem State.stepHalted_v (e : Fatal) : (s.stepHalted e).v = s.v := rfl
@[simp] theorem State.stepHalted_i (e : Fatal) : (s.stepHalted e).i = s.i := rfl
@[simp] theorem State.stepHalted_pc (e : Fatal) : (s.stepHalted e).pc = s.pc := rfl
@[simp] theorem State.stepHalted_sp (e : Fatal) : (s.stepHalted e).sp = s.sp := rfl
@[simp] theorem State.stepHalted_stack (e : Fatal) : (s.stepHalted e).stack = s.stack := rfl
@[simp] theorem State.stepHalted_mem (e : Fatal) : (s.stepHalted e).mem = s.mem := rfl
@[simp] theorem State.stepHalted_fb (e : Fatal) : (s.stepHalted e).fb = s.fb := rfl
@[simp] theorem State.stepHalted_dt (e : Fatal) : (s.stepHalted e).dt = s.dt := rfl
@[simp] theorem State.stepHalted_st (e : Fatal) : (s.stepHalted e).st = s.st := rfl
@[simp] theorem State.stepHalted_key (e : Fatal) : (s.stepHalted e).key = s.key := rfl
@[simp] theorem State.stepHalted_halt (e : Fatal) : (s.stepHalted e).halt = s.halt := rfl
@[simp] theorem State.stepHalted_loaded (e : Fatal) : (s.stepHalted e).loaded = s.loaded := rfl
@[simp] theorem State.stepHalted_params (e : Fatal) : (s.stepHalted e).params = s.params := rfl
@[simp] theorem State.stepHalted_out (e : Fatal) : (s.stepHalted e).out = { status := .fatal e, diag := .none, tone := false } := rfl
@[simp] theorem State.stepHalted_draws (e : Fatal) : (s.stepHalted e).draws = s.draws := rfl
@[simp] theorem State.stepHalted_getV (e : Fatal) (r : Reg) : (s.stepHalted e).getV r = s.getV r := rfl

/-! ## `writeKey` -/

@[simp] theorem State.writeKey_v (k : Reg) (c : Bool) : (s.writeKey k c).v = s.v := rfl
@[simp] theorem State.writeKey_i (k : Reg) (c : Bool) : (s.writeKey k c).i = s.i := rfl
@[simp] theorem State.writeKey_pc (k : Reg) (c : Bool) : (s.writeKey k c).pc = s.pc := rfl
@[simp] theorem State.writeKey_sp (k : Reg) (c : Bool) : (s.writeKey k c).sp = s.sp := rfl
@[simp] theorem State.writeKey_stack (k : Reg) (c : Bool) : (s.writeKey k c).stack = s.stack := rfl
@[simp] theorem State.writeKey_mem (k : Reg) (c : Bool) : (s.writeKey k c).mem = s.mem := rfl
@[simp] theorem State.writeKey_fb (k : Reg) (c : Bool) : (s.writeKey k c).fb = s.fb := rfl
@[simp] theorem State.writeKey_dt (k : Reg) (c : Bool) : (s.writeKey k c).dt = s.dt := rfl
@[simp] theorem State.writeKey_st (k : Reg) (c : Bool) : (s.writeKey k c).st = s.st := rfl
@[simp] theorem State.writeKey_key (k : Reg) (c : Bool) : (s.writeKey k c).key = s.key.set k c := rfl
@[simp] theorem State.writeKey_halt (k : Reg) (c : Bool) : (s.writeKey k c).halt = s.halt := rfl
@[simp] theorem State.writeKey_loaded (k : Reg) (c : Bool) : (s.writeKey k c).loaded = s.loaded := rfl
@[simp] theorem State.writeKey_params (k : Reg) (c : Bool) : (s.writeKey k c).params = s.params := rfl
@[simp] theorem State.writeKey_out (k : Reg) (c : Bool) : (s.writeKey k c).out = s.out := rfl
@[simp] theorem State.writeKey_draws (k : Reg) (c : Bool) : (s.writeKey k c).draws = s.draws := rfl
@[simp] theorem State.writeKey_getV (k : Reg) (c : Bool) (r : Reg) : (s.writeKey k c).getV r = s.getV r := rfl

/-! ## `skipIf` -/

theorem State.skipIf_eq (c : Bool) : s.skipIf c = s.setPc (if c then s.pc + 2 else s.pc) := by
  cases c <;> rfl

/-! ## Registers -/

@[simp] theorem State.getV_setV_same (r : Reg) (b : Byte) : (s.setV r b).getV r = b := by
  simp [State.getV]

theorem State.getV_setV_ne (r q : Reg) (b : Byte) (h : q ≠ r) : (s.setV r b).getV q = s.getV q := by
  have hv : r.val ≠ q.val := fun e => h (Fin.ext e.symm)
  simp [State.getV, Vector.getElem_set_ne, hv]

theorem State.getV_setV (r q : Reg) (b : Byte) : (s.setV r b).getV q = if q = r then b else s.getV q := by
  split
  · next h => subst h; simp
  · next h => exact s.getV_setV_ne r q b h

theorem State.eq_of_getV {u w : State} (h : ∀ r, u.getV r = w.getV r) : u.v = w.v := by
  apply Vector.ext
  intro k hk
  exact h ⟨k, hk⟩

theorem State.setV_setV (r : Reg) (a b : Byte) : (s.setV r a).setV r b = s.setV r b := by
  simp [State.setV]

/-! ## Keys -/

@[simp] theorem State.writeKey_same (k : Reg) (c : Bool) : (s.writeKey k c).key[k] = c := by
  simp

theorem State.writeKey_ne (k q : Reg) (c : Bool) (h : q ≠ k) : (s.writeKey k c).key[q] = s.key[q] := by
  have hv : k.val ≠ q.val := fun e => h (Fin.ext e.symm)
  simp [Vector.getElem_set_ne, hv]

/-- A keypad write changes the keys alone. -/
theorem State.writeKeys_frame (keys : List (Reg × Bool)) : s.writeKeys keys = { s with key := (s.writeKeys keys).key } := by
  induction keys generalizing s with
  | nil => rfl
  | cons c keys ih => rw [State.writeKeys, ih]; rfl

/-- A key that a keypad write does not name keeps its state. -/
theorem State.writeKeys_other {keys : List (Reg × Bool)} {q : Reg} (h : ∀ b, (q, b) ∉ keys) :
    (s.writeKeys keys).key[q] = s.key[q] := by
  induction keys generalizing s with
  | nil => rfl
  | cons c keys ih =>
    rw [State.writeKeys, ih _ (fun b hb => h b (List.mem_cons_of_mem _ hb)), State.writeKey_ne]
    rintro rfl
    exact h c.2 List.mem_cons_self

/-- A key that a keypad write names ends as the last pair that names it says. -/
theorem State.writeKeys_last (before rest : List (Reg × Bool)) (q : Reg) (b : Bool) (h : ∀ c, (q, c) ∉ rest) :
    (s.writeKeys (before ++ (q, b) :: rest)).key[q] = b := by
  induction before generalizing s with
  | nil => rw [List.nil_append, State.writeKeys, State.writeKeys_other _ h, State.writeKey_same]
  | cons c before ih => exact ih _

end Sys2Proof.Machine
end

