-- ==== Sys2Proof/Laws/Ops.lean ====
section
/-!
SUPPORT. For each shared operation, everything it can do, said once.
-/
namespace Sys2Proof.Machine

/-! ## Effective addresses and byte accesses -/

/-- An effective address is the address modulo 4096, whichever MEM_OOB is. -/
theorem effectiveAddress_ok {m : MemOob} {a ea : Nat} (h : effectiveAddress m a = .ok ea) :
    ea = a % 4096 ∧ (m = .mask ∨ a < 4096) := by
  cases m with
  | mask => simp [effectiveAddress] at h; simp [h]
  | fault =>
    simp only [effectiveAddress] at h
    split at h
    · cases h
    · cases h; omega

/-- The one error of an address, and when it is raised. -/
theorem effectiveAddress_error {m : MemOob} {a : Nat} {e : Fatal} (h : effectiveAddress m a = .error e) :
    e = .addressOutOfRange a ∧ m = .fault ∧ 4096 ≤ a := by
  cases m with
  | mask => cases h
  | fault =>
    simp only [effectiveAddress] at h
    split at h
    · next ha => cases h; exact ⟨rfl, rfl, ha⟩
    · cases h

/-- When an address reaches a byte. -/
theorem effectiveAddress_of_reach {m : MemOob} {a : Nat} (h : m = .mask ∨ a < 4096) : effectiveAddress m a = .ok (a % 4096) := by
  cases m with
  | mask => rfl
  | fault =>
    have ha : a < 4096 := by simpa using h
    simp [effectiveAddress, Nat.mod_eq_of_lt ha, ha]

theorem State.memRead_of_reach (s : State) {a : Nat} (h : s.params.memOob = .mask ∨ a < 4096) :
    s.memRead a = .ok (s.mem.read (a % 4096)) := by
  simp [State.memRead, effectiveAddress_of_reach h]

theorem State.memWrite_of_reach (s : State) {a : Nat} (b : Byte) (h : s.params.memOob = .mask ∨ a < 4096) :
    s.memWrite a b = .ok (s.setMem (s.mem.write (a % 4096) b)) := by
  simp [State.memWrite, effectiveAddress_of_reach h]

theorem State.memRead_ok {s : State} {a : Nat} {b : Byte} (h : s.memRead a = .ok b) :
    b = s.mem.read (a % 4096) ∧ (s.params.memOob = .mask ∨ a < 4096) := by
  simp only [State.memRead] at h
  split at h
  · next ea hea => cases h; obtain ⟨rfl, hr⟩ := effectiveAddress_ok hea; exact ⟨rfl, hr⟩
  · cases h

theorem State.memRead_error {s : State} {a : Nat} {e : Fatal} (h : s.memRead a = .error e) :
    e = .addressOutOfRange a ∧ s.params.memOob = .fault ∧ 4096 ≤ a := by
  simp only [State.memRead] at h
  split at h
  · cases h
  · next e' he => cases h; exact effectiveAddress_error he

theorem State.memWrite_ok {s t : State} {a : Nat} {b : Byte} (h : s.memWrite a b = .ok t) :
    t = s.setMem (s.mem.write (a % 4096) b) ∧ (s.params.memOob = .mask ∨ a < 4096) := by
  simp only [State.memWrite] at h
  split at h
  · next ea hea => cases h; obtain ⟨rfl, hr⟩ := effectiveAddress_ok hea; exact ⟨rfl, hr⟩
  · cases h

theorem State.memWrite_error {s : State} {a : Nat} {b : Byte} {e : Fatal} (h : s.memWrite a b = .error e) :
    e = .addressOutOfRange a ∧ s.params.memOob = .fault ∧ 4096 ≤ a := by
  simp only [State.memWrite] at h
  split at h
  · cases h
  · next e' he => cases h; exact effectiveAddress_error he

/-! ## Several bytes -/

/-- Bytes stored change memory only, and keep its canonical form. -/
theorem State.storeBytes_ok {bs : List Byte} {s t : State} {a : Nat} (h : s.storeBytes a bs = .ok t) :
    t = s.setMem t.mem ∧ (s.mem.wf = true → t.mem.wf = true) := by
  induction bs generalizing s a with
  | nil => cases h; exact ⟨rfl, id⟩
  | cons b bs ih =>
    simp only [State.storeBytes] at h
    split at h
    · next u hu =>
      obtain ⟨rfl, -⟩ := State.memWrite_ok hu
      obtain ⟨ht, hwf⟩ := ih h
      exact ⟨ht, fun hs => hwf (s.mem.write_wf _ b hs (Nat.mod_lt _ (by omega)))⟩
    · cases h

/-- The bytes are stored whenever every address reaches a byte. -/
theorem State.storeBytes_of_reach {bs : List Byte} {s : State} {a : Nat}
    (h : s.params.memOob = .mask ∨ a + bs.length ≤ 4096) : ∃ t, s.storeBytes a bs = .ok t := by
  induction bs generalizing s a with
  | nil => exact ⟨s, rfl⟩
  | cons b bs ih =>
    simp only [List.length_cons] at h
    have hr : s.params.memOob = .mask ∨ a < 4096 := h.imp_right (fun h => by omega)
    simp only [State.storeBytes, s.memWrite_of_reach b hr]
    exact ih (h.imp_right (fun h => by omega))

/-- An address that none of the stored bytes lands on reads as before. -/
theorem State.storeBytes_read_other {bs : List Byte} {s t : State} {a c : Nat} (hwf : s.mem.wf = true)
    (h : s.storeBytes a bs = .ok t) (hc : ∀ j < bs.length, c ≠ (a + j) % 4096) : t.mem.read c = s.mem.read c := by
  induction bs generalizing s a with
  | nil => cases h; rfl
  | cons b bs ih =>
    simp only [State.storeBytes] at h
    split at h
    · next u hu =>
      obtain ⟨rfl, -⟩ := State.memWrite_ok hu
      rw [ih (s.mem.write_wf _ b hwf (Nat.mod_lt _ (by omega))) h, State.setMem_mem, s.mem.read_write _ _ _ hwf, if_neg]
      · simpa using hc 0 (by simp)
      · intro j hj
        have := hc (j + 1) (by simp; omega)
        rwa [show a + 1 + j = a + (j + 1) by omega]
    · cases h

/-- Each stored byte is read back, since at most 4096 consecutive addresses are distinct modulo 4096. -/
theorem State.storeBytes_read_stored {bs : List Byte} {s t : State} {a : Nat} (hwf : s.mem.wf = true) (hlen : bs.length ≤ 4096)
    (h : s.storeBytes a bs = .ok t) (j : Nat) (hj : j < bs.length) : t.mem.read ((a + j) % 4096) = bs[j] := by
  induction bs generalizing s a j with
  | nil => simp at hj
  | cons b bs ih =>
    simp only [List.length_cons] at hj hlen
    simp only [State.storeBytes] at h
    split at h
    · next u hu =>
      obtain ⟨rfl, -⟩ := State.memWrite_ok hu
      have hwf' := s.mem.write_wf (a % 4096) b hwf (Nat.mod_lt _ (by omega))
      cases j with
      | zero =>
        rw [State.storeBytes_read_other (s := s.setMem _) hwf' h (by intro k hk; omega)]
        simp [s.mem.read_write _ _ _ hwf]
      | succ j =>
        have := ih (s := s.setMem _) hwf' (by omega) h j (by omega)
        rw [show a + (j + 1) = a + 1 + j by omega, this]
        rfl
    · cases h

/-- Which error a store raises: its first address at or above 4096. -/
theorem State.storeBytes_error {bs : List Byte} {s : State} {a : Nat} {e : Fatal} (h : s.storeBytes a bs = .error e) :
    e = .addressOutOfRange (max a 4096) ∧ s.params.memOob = .fault ∧ 4096 < a + bs.length := by
  induction bs generalizing s a with
  | nil => cases h
  | cons b bs ih =>
    simp only [State.storeBytes] at h
    split at h
    · next u hu =>
      obtain ⟨rfl, hr⟩ := State.memWrite_ok hu
      obtain ⟨he, hm, hl⟩ := ih h
      simp only [State.setMem_params] at hm
      have ha : a < 4096 := by simpa [hm] using hr
      refine ⟨?_, hm, by simp; omega⟩
      rw [he]; congr 1; omega
    · next e' he =>
      cases h
      obtain ⟨rfl, hm, ha⟩ := State.memWrite_error he
      refine ⟨?_, hm, by simp; omega⟩
      congr 1; omega

/-- Registers loaded change the registers only. -/
theorem State.loadRange_ok {rs : List Reg} {s t : State} {a : Nat} (h : s.loadRange a rs = .ok t) :
    t = { s with v := t.v } ∧
      ∀ q, t.getV q = if q ∈ rs then s.mem.read ((a + q.val) % 4096) else s.getV q := by
  induction rs generalizing s with
  | nil => cases h; exact ⟨rfl, by simp⟩
  | cons r rs ih =>
    simp only [State.loadRange] at h
    split at h
    · next b hb =>
      obtain ⟨rfl, -⟩ := State.memRead_ok hb
      obtain ⟨ht, hv⟩ := ih h
      refine ⟨ht, fun q => ?_⟩
      rw [hv q]
      by_cases hq : q ∈ rs
      · simp [hq]
      · by_cases hqr : q = r
        · subst hqr; simp [hq]
        · simp [hq, hqr, State.getV_setV_ne]
    · cases h

/-- The registers are loaded whenever every address reaches a byte. -/
theorem State.loadRange_of_reach {rs : List Reg} {s : State} {a : Nat}
    (h : s.params.memOob = .mask ∨ ∀ r ∈ rs, a + r.val < 4096) : ∃ t, s.loadRange a rs = .ok t := by
  induction rs generalizing s with
  | nil => exact ⟨s, rfl⟩
  | cons r rs ih =>
    have hr : s.params.memOob = .mask ∨ a + r.val < 4096 := h.imp id (fun h => h r (by simp))
    simp only [State.loadRange, s.memRead_of_reach hr]
    exact ih (h.imp id (fun h q hq => h q (by simp [hq])))

/-- Which error a load of registers can raise. -/
theorem State.loadRange_error {rs : List Reg} {s : State} {a : Nat} {e : Fatal} (h : s.loadRange a rs = .error e) :
    ∃ r ∈ rs, e = .addressOutOfRange (a + r.val) ∧ s.params.memOob = .fault ∧ 4096 ≤ a + r.val := by
  induction rs generalizing s with
  | nil => cases h
  | cons r rs ih =>
    simp only [State.loadRange] at h
    split at h
    · obtain ⟨q, hq, hrest⟩ := ih h
      exact ⟨q, by simp [hq], hrest⟩
    · next e' he =>
      cases h
      exact ⟨r, by simp, State.memRead_error he⟩

/-- `V[0]` to `V[x]` are the registers up to `x`. -/
theorem mem_registerRange (x q : Reg) : q ∈ registerRange x ↔ q ≤ x := by
  revert x q; decide

@[simp] theorem registerRange_length (x : Reg) : (registerRange x).length = x.val + 1 := by
  revert x; decide

theorem registerRange_getElem (x : Reg) (j : Nat) (h : j < (registerRange x).length) :
    (registerRange x)[j] = ⟨j, by simp at h; omega⟩ := by
  simp [registerRange]

/-! ## The end of an instruction -/

/-- An instruction that can meet an error ends in its new state or in the entry into the error: always a next state. -/
theorem State.complete_cases (s : State) (r : Except Fatal State) :
    (∃ t, r = .ok t ∧ s.complete r = .next t) ∨
      (∃ e, r = .error e ∧ s.complete r = .next ((s.setPc s.execAddr).takeFatal e)) := by
  cases r with
  | ok t => exact .inl ⟨t, rfl, rfl⟩
  | error e => exact .inr ⟨e, rfl, rfl⟩

/-! ## The stack -/

theorem State.pushCall_some {s t : State} {w : Word} (h : s.pushCall w = some t) :
    ∃ hs : s.sp.val < 16,
      t = { s with stack := s.stack.set s.sp.val s.pc, sp := ⟨s.sp.val + 1, by omega⟩, pc := w } := by
  simp only [State.pushCall] at h
  split at h
  · next hs => exact ⟨hs, (Option.some.inj h).symm⟩
  · cases h

theorem State.pushCall_none {s : State} {w : Word} : s.pushCall w = none ↔ s.sp.val = 16 := by
  simp only [State.pushCall]
  split <;> simp <;> omega

theorem State.popReturn_some {s t : State} (h : s.popReturn = some t) :
    ∃ hs : 0 < s.sp.val, t = { s with sp := ⟨s.sp.val - 1, by omega⟩, pc := s.stack[s.sp.val - 1] } := by
  simp only [State.popReturn] at h
  split at h
  · next hs => exact ⟨hs, (Option.some.inj h).symm⟩
  · cases h

theorem State.popReturn_none {s : State} : s.popReturn = none ↔ s.sp.val = 0 := by
  simp only [State.popReturn]
  split <;> simp <;> omega

/-! ## The keypad -/

/-- The key waited for is pressed, and no lower key is. -/
theorem State.leastKey_some {s : State} {k : Reg} (h : s.leastKey = some k) :
    s.key[k] = true ∧ ∀ q : Reg, q < k → s.key[q] = false := by
  obtain ⟨hk, as, bs, hab, has⟩ := List.find?_eq_some_iff_append.mp h
  refine ⟨hk, fun q hq => ?_⟩
  have hsort : (as ++ k :: bs).Pairwise (· < ·) := hab ▸ List.pairwise_lt_finRange 16
  have hmem : q ∈ as ++ k :: bs := hab ▸ List.mem_finRange q
  rcases List.mem_append.mp hmem with hq' | hq'
  · simpa using has q hq'
  · exfalso
    have := (List.pairwise_append.mp hsort).2.1
    rcases List.mem_cons.mp hq' with rfl | hq''
    · exact lt_irrefl _ hq
    · exact lt_asymm hq ((List.pairwise_cons.mp this).1 q hq'')

theorem State.leastKey_none {s : State} (h : s.leastKey = none) (q : Reg) : s.key[q] = false := by
  have := List.find?_eq_none.mp h q (List.mem_finRange q)
  simpa using this

/-! ## The phases of a step -/

theorem State.fetch_of_reach (s : State) (h : s.params.memOob = .mask ∨ s.pc.toNat + 1 < 4096) :
    s.fetch = .ok (joinBytes (s.mem.read (s.pc.toNat % 4096)) (s.mem.read ((s.pc.toNat + 1) % 4096))) := by
  have h1 : s.params.memOob = .mask ∨ s.pc.toNat < 4096 := h.imp_right (fun h => by omega)
  simp [State.fetch, s.memRead_of_reach h1, s.memRead_of_reach h]

theorem State.fetch_error {s : State} {e : Fatal} (h : s.fetch = .error e) :
    e = .addressOutOfRange (max s.pc.toNat 4096) ∧ s.params.memOob = .fault ∧ 4096 ≤ s.pc.toNat + 1 := by
  simp only [State.fetch] at h
  split at h
  · next e' he =>
    cases h
    obtain ⟨rfl, hm, ha⟩ := State.memRead_error he
    exact ⟨by congr 1; omega, hm, by omega⟩
  · next hi hhi =>
    split at h
    · next e' he =>
      cases h
      obtain ⟨rfl, hm, ha⟩ := State.memRead_error he
      have := (State.memRead_ok hhi).2
      have : s.pc.toNat < 4096 := by simpa [hm] using this
      exact ⟨by congr 1; omega, hm, ha⟩
    · cases h

theorem countDown_toNat (b : Byte) : (countDown b).toNat = b.toNat - 1 := by
  simp only [countDown]
  split
  · next h => subst h; rfl
  · next h =>
    have : b.toNat ≠ 0 := fun e => h (BitVec.eq_of_toNat_eq (by simpa using e))
    have hb := b.isLt
    simp [BitVec.toNat_sub]
    omega

/-- The end of a step ticks exactly when no error is latched. -/
theorem State.finishStep_of_running {s : State} (h : s.halt = none) : s.finishStep = s.tick := by
  simp [State.finishStep, h]

theorem State.finishStep_of_halted {s : State} {e : Fatal} (h : s.halt = some e) : s.finishStep = s := by
  simp [State.finishStep, h]

end Sys2Proof.Machine
end

