-- ==== Sys2Proof/Laws/Drawing.lean ====
section
/-!
SUPPORT. What drawing a sprite does, said once: the sprite is a list of distinct positions, and each position on the grid has its cell
flipped (spec/41_display.md R112, R113).
-/
namespace Sys2Proof.Machine

/-- Sprite bits drawn one after another at the positions of a list. -/
def Drawing.pixels (d : Drawing) (oob : DrawOob) : List (Nat × Nat) → Except Fatal Drawing
  | [] => .ok d
  | p :: ps =>
    match d.pixel oob p.1 p.2 with
    | .ok d' => d'.pixels oob ps
    | .error e => .error e

/-- The positions of the bits 1 of one row. -/
def rowPixels (row : Byte) (x0 py : Nat) : List (Nat × Nat) := ((List.range 8).filter (spriteBit row)).map (fun c => (x0 + c, py))

/-- The positions of the bits 1 of the listed rows of the sprite at `I`. -/
def State.spritePixels (s : State) (x0 y0 : Nat) (rs : List Nat) : List (Nat × Nat) :=
  rs.flatMap (fun r => rowPixels (s.spriteRow r) x0 (y0 + r))

theorem Drawing.pixels_append (d : Drawing) (oob : DrawOob) (ps qs : List (Nat × Nat)) :
    d.pixels oob (ps ++ qs) = match d.pixels oob ps with | .ok d' => d'.pixels oob qs | .error e => .error e := by
  induction ps generalizing d with
  | nil => rfl
  | cons p ps ih =>
    simp only [List.cons_append, Drawing.pixels]
    cases d.pixel oob p.1 p.2 with
    | ok d' => exact ih d'
    | error e => rfl

theorem Drawing.row_eq_pixels (d : Drawing) (oob : DrawOob) (x0 py : Nat) (row : Byte) (cs : List Nat) :
    d.row oob x0 py row cs = d.pixels oob ((cs.filter (spriteBit row)).map (fun c => (x0 + c, py))) := by
  induction cs generalizing d with
  | nil => rfl
  | cons c cs ih =>
    simp only [Drawing.row, List.filter_cons]
    split
    · simp only [List.map_cons, Drawing.pixels]
      cases d.pixel oob (x0 + c) py with
      | ok d' => exact ih d'
      | error e => rfl
    · exact ih _

/-- When every row can be read, the sprite is drawn position by position. -/
theorem State.drawRows_eq_pixels (s : State) (x0 y0 : Nat) (d : Drawing) (rs : List Nat)
    (h : ∀ r ∈ rs, s.Reaches (s.i.toNat + r)) :
    s.drawRows x0 y0 d rs = d.pixels s.params.drawOob (s.spritePixels x0 y0 rs) := by
  induction rs generalizing d with
  | nil => rfl
  | cons r rs ih =>
    have hrow : d.row s.params.drawOob x0 (y0 + r) (s.mem.read ((s.i.toNat + r) % 4096)) (List.range 8) =
        d.pixels s.params.drawOob (rowPixels (s.spriteRow r) x0 (y0 + r)) := Drawing.row_eq_pixels ..
    simp only [State.drawRows, s.memRead_of_reach (h r (by simp)), hrow, State.spritePixels, List.flatMap_cons, Drawing.pixels_append]
    cases d.pixels s.params.drawOob (rowPixels (s.spriteRow r) x0 (y0 + r)) with
    | ok d' => exact ih d' (fun q hq => h q (by simp [hq]))
    | error e => rfl

/-- A sprite that is drawn had every row read. -/
theorem State.drawRows_reaches {s : State} {x0 y0 : Nat} {d d' : Drawing} {rs : List Nat} (h : s.drawRows x0 y0 d rs = .ok d') :
    ∀ r ∈ rs, s.Reaches (s.i.toNat + r) := by
  induction rs generalizing d with
  | nil => simp
  | cons r rs ih =>
    simp only [State.drawRows] at h
    split at h
    · cases h
    · next row hrow =>
      split at h
      · intro q hq
        rcases List.mem_cons.mp hq with rfl | hq
        · exact (State.memRead_ok hrow).2
        · exact ih h q hq
      · cases h

/-- What drawing at distinct positions leaves. -/
theorem Drawing.pixels_ok {d d' : Drawing} {oob : DrawOob} {ps : List (Nat × Nat)} (hnd : ps.Nodup) (h : d.pixels oob ps = .ok d') :
    (∀ px py (hg : px < 64 ∧ py < 32),
      d'.fb[64 * py + px]'(by omega) = (d.fb[64 * py + px]'(by omega) ^^ decide ((px, py) ∈ ps))) ∧
    (d'.hit = true ↔ d.hit = true ∨ ∃ px py, ∃ hg : px < 64 ∧ py < 32, (px, py) ∈ ps ∧ d.fb[64 * py + px]'(by omega) = true) ∧
    (d'.clipped = true ↔ d.clipped = true ∨ ∃ px py, (px, py) ∈ ps ∧ ¬ (px < 64 ∧ py < 32)) ∧
    (oob = .fault → ∀ px py, (px, py) ∈ ps → px < 64 ∧ py < 32) := by
  induction ps generalizing d with
  | nil => cases h; simp
  | cons p ps ih =>
    obtain ⟨qx, qy⟩ := p
    obtain ⟨hnot, hnd⟩ := List.nodup_cons.mp hnd
    simp only [Drawing.pixels, Drawing.pixel] at h
    by_cases hg : qx < 64 ∧ qy < 32
    · simp only [hg, and_self, dite_true] at h
      obtain ⟨hfb, hhit, hclip, hall⟩ := ih hnd h
      have hset : ∀ px py (h' : px < 64 ∧ py < 32), (d.fb.set (64 * qy + qx) (!d.fb[64 * qy + qx]'(by omega)) (by omega))[64 * py + px]'(by omega) =
          if px = qx ∧ py = qy then !d.fb[64 * qy + qx]'(by omega) else d.fb[64 * py + px]'(by omega) := by
        intro px py h'
        rw [Vector.getElem_set]
        by_cases he : px = qx ∧ py = qy
        · obtain ⟨rfl, rfl⟩ := he; simp
        · rw [if_neg (by omega), if_neg he]
      refine ⟨fun px py h' => ?_, ?_, ?_, fun hf px py hm => ?_⟩
      · rw [hfb px py h', hset px py h']
        by_cases he : px = qx ∧ py = qy
        · obtain ⟨rfl, rfl⟩ := he; simp [hnot]
        · have : ((px, py) = (qx, qy)) ↔ False := by simp; omega
          simp [he, this]
      · rw [hhit]
        simp only [Bool.or_eq_true, List.mem_cons]
        constructor
        · rintro ((hd | hc) | ⟨px, py, h', hm, hv⟩)
          · exact .inl hd
          · exact .inr ⟨qx, qy, hg, .inl rfl, hc⟩
          · rw [hset px py h'] at hv
            have he : ¬ (px = qx ∧ py = qy) := by rintro ⟨rfl, rfl⟩; exact hnot hm
            rw [if_neg he] at hv
            exact .inr ⟨px, py, h', .inr hm, hv⟩
        · rintro (hd | ⟨px, py, h', hm | hm, hv⟩)
          · exact .inl (.inl hd)
          · obtain ⟨rfl, rfl⟩ := Prod.mk.inj hm
            exact .inl (.inr hv)
          · have he : ¬ (px = qx ∧ py = qy) := by rintro ⟨rfl, rfl⟩; exact hnot hm
            exact .inr ⟨px, py, h', hm, by rw [hset px py h', if_neg he]; exact hv⟩
      · rw [hclip]
        simp only [List.mem_cons]
        constructor
        · rintro (hc | ⟨px, py, hm, hv⟩)
          · exact .inl hc
          · exact .inr ⟨px, py, .inr hm, hv⟩
        · rintro (hc | ⟨px, py, hm | hm, hv⟩)
          · exact .inl hc
          · obtain ⟨rfl, rfl⟩ := Prod.mk.inj hm; exact absurd hg hv
          · exact .inr ⟨px, py, hm, hv⟩
      · rcases List.mem_cons.mp hm with hm | hm
        · obtain ⟨rfl, rfl⟩ := Prod.mk.inj hm; exact hg
        · exact hall hf px py hm
    · cases oob with
      | fault => simp [hg] at h
      | clip =>
        simp only [hg, dite_false] at h
        obtain ⟨hfb, hhit, hclip, -⟩ := ih hnd h
        have hne : ∀ px py, px < 64 ∧ py < 32 → ((px, py) = (qx, qy) ↔ False) := by
          intro px py h'; simp; rintro rfl rfl; exact hg h'
        refine ⟨fun px py h' => ?_, ?_, ?_, by simp⟩
        · rw [hfb px py h']; simp [hne px py h']
        · rw [hhit]
          constructor
          · rintro (hd | ⟨px, py, h', hm, hv⟩)
            · exact .inl hd
            · exact .inr ⟨px, py, h', List.mem_cons_of_mem _ hm, hv⟩
          · rintro (hd | ⟨px, py, h', hm, hv⟩)
            · exact .inl hd
            · refine .inr ⟨px, py, h', ?_, hv⟩
              rcases List.mem_cons.mp hm with hm | hm
              · exact absurd hm (by simp [hne px py h'])
              · exact hm
        · rw [hclip]
          simp only [true_or, true_iff]
          exact .inr ⟨qx, qy, List.mem_cons_self, hg⟩

/-- Drawing completes when off-grid bits are clipped, or when there are none. -/
theorem Drawing.pixels_complete (d : Drawing) (oob : DrawOob) (ps : List (Nat × Nat))
    (h : oob = .clip ∨ ∀ p ∈ ps, p.1 < 64 ∧ p.2 < 32) : ∃ d', d.pixels oob ps = .ok d' := by
  induction ps generalizing d with
  | nil => exact ⟨d, rfl⟩
  | cons p ps ih =>
    simp only [Drawing.pixels, Drawing.pixel]
    by_cases hg : p.1 < 64 ∧ p.2 < 32
    · simp only [hg, and_self, dite_true]
      exact ih _ (h.imp_right (fun h q hq => h q (by simp [hq])))
    · have hc : oob = .clip := h.resolve_right (fun h => hg (h p (by simp)))
      subst hc
      simp only [hg, dite_false]
      exact ih _ (.inl rfl)

/-- A position is in the sprite's list exactly when the sprite has a bit 1 there. -/
theorem State.mem_spritePixels (s : State) (x y : Reg) (n : Nibble) (px py : Nat) :
    (px, py) ∈ s.spritePixels (s.originX x) (s.originY y) (List.range n.toNat) ↔ s.SpriteAt x y n px py := by
  simp only [State.spritePixels, List.mem_flatMap, List.mem_range, rowPixels, List.mem_map, List.mem_filter, Prod.mk.injEq,
    State.SpriteAt, spriteBit]
  constructor
  · rintro ⟨r, hr, c, ⟨hc, hb⟩, rfl, rfl⟩
    refine ⟨by omega, by omega, by omega, by omega, ?_⟩
    simpa using hb
  · rintro ⟨h1, h2, h3, h4, hb⟩
    exact ⟨py - s.originY y, by omega, px - s.originX x, ⟨by omega, hb⟩, by omega, by omega⟩

/-- The sprite's positions are distinct. -/
theorem State.spritePixels_nodup (s : State) (x0 y0 n : Nat) : (s.spritePixels x0 y0 (List.range n)).Nodup := by
  rw [State.spritePixels, List.nodup_flatMap]
  refine ⟨fun r _ => ?_, ?_⟩
  · exact ((List.nodup_range).filter _).map (fun a b h => by simpa using h)
  · refine (List.nodup_range).imp ?_
    intro a b hab p hp hq
    simp only [rowPixels, List.mem_map] at hp hq
    obtain ⟨_, _, rfl⟩ := hp
    obtain ⟨_, _, h⟩ := hq
    simp only [Prod.mk.injEq] at h
    omega

theorem State.cellAt_onGrid (s : State) {px py : Nat} (h : OnGrid px py) :
    s.cellAt px py = s.fb[64 * py + px]'(by obtain ⟨_, _⟩ := h; omega) := dif_pos h

/-- What `DRW` leaves when it completes, and the state it completes in. -/
theorem State.drawSprite_ok {s : State} {x y : Reg} {n : Nibble} {d : Drawing} (h : s.drawSprite x y n = .ok d) :
    (∀ px py (hg : px < 64 ∧ py < 32), ∀ lit : Bool, (lit = true ↔ s.SpriteAt x y n px py) →
      d.fb[64 * py + px]'(by omega) = (s.fb[64 * py + px]'(by omega) ^^ lit)) ∧
    (d.hit = true ↔ ∃ px py, OnGrid px py ∧ s.SpriteAt x y n px py ∧ s.cellAt px py = true) ∧
    (d.clipped = true ↔ ∃ px py, ¬ OnGrid px py ∧ s.SpriteAt x y n px py) ∧
    (s.params.drawOob = .fault → ∀ px py, s.SpriteAt x y n px py → OnGrid px py) ∧
    (∀ r < n.toNat, s.Reaches (s.i.toNat + r)) := by
  have hr : ∀ r ∈ List.range n.toNat, s.Reaches (s.i.toNat + r) := State.drawRows_reaches h
  rw [State.drawSprite, s.drawRows_eq_pixels _ _ _ _ hr] at h
  obtain ⟨hfb, hhit, hclip, hall⟩ := Drawing.pixels_ok (s.spritePixels_nodup _ _ _) h
  simp only [State.mem_spritePixels] at hhit hclip hall
  refine ⟨fun px py hg lit hl => ?_, ?_, ?_, hall, fun r hr' => hr r (List.mem_range.mpr hr')⟩
  · rw [hfb px py hg]
    congr 1
    rw [Bool.eq_iff_iff, hl, decide_eq_true_iff, State.mem_spritePixels]
  · rw [hhit]
    simp only [Bool.false_eq_true, false_or, OnGrid, State.cellAt]
    constructor
    · rintro ⟨px, py, hg, hs, hv⟩; exact ⟨px, py, hg, hs, by rw [dif_pos hg]; exact hv⟩
    · rintro ⟨px, py, hg, hs, hv⟩; rw [dif_pos hg] at hv; exact ⟨px, py, hg, hs, hv⟩
  · rw [hclip]
    simp only [Bool.false_eq_true, false_or, OnGrid]
    constructor
    · rintro ⟨px, py, hs, hg⟩; exact ⟨px, py, hg, hs⟩
    · rintro ⟨px, py, hg, hs⟩; exact ⟨px, py, hs, hg⟩

/-- When the sprite is drawn to the end. -/
theorem State.drawSprite_complete (s : State) (x y : Reg) (n : Nibble) (hr : ∀ r < n.toNat, s.Reaches (s.i.toNat + r))
    (hg : s.params.drawOob = .clip ∨ ∀ px py, s.SpriteAt x y n px py → OnGrid px py) : ∃ d, s.drawSprite x y n = .ok d := by
  rw [State.drawSprite, s.drawRows_eq_pixels _ _ _ _ (fun r h => hr r (List.mem_range.mp h))]
  refine Drawing.pixels_complete _ _ _ (hg.imp_right fun hg p hp => ?_)
  exact hg p.1 p.2 ((s.mem_spritePixels x y n p.1 p.2).mp hp)

end Sys2Proof.Machine
end

