-- ==== Sys2Proof/Laws/Encoding.lean ====
section
/-!
SUPPORT. Words as numbers: the value of each packed format, the value of each field, and what each field of a packed word is.
-/
namespace Sys2Proof

theorem toNat_append16 {a b : Nat} (u : BitVec a) (v : BitVec b) : (u ++ v).toNat = u.toNat * 2 ^ b + v.toNat := by
  rw [BitVec.toNat_append, ← Nat.shiftLeft_add_eq_or_of_lt v.isLt, Nat.shiftLeft_eq]

/-! ## Packed words -/

@[simp] theorem regBits_toNat (r : Reg) : (regBits r).toNat = r.val := rfl

theorem packNNN_toNat (f : Nibble) (nnn : Addr12) : (packNNN f nnn).toNat = f.toNat * 4096 + nnn.toNat :=
  toNat_append16 f nnn

theorem packXNN_toNat (f : Nibble) (x : Reg) (nn : Byte) : (packXNN f x nn).toNat = f.toNat * 4096 + x.val * 256 + nn.toNat := by
  have h := toNat_append16 (f ++ regBits x) nn
  rw [toNat_append16 f (regBits x), regBits_toNat] at h
  exact h.trans (by omega)

theorem packXYN_toNat (f : Nibble) (x y : Reg) (n : Nibble) :
    (packXYN f x y n).toNat = f.toNat * 4096 + x.val * 256 + y.val * 16 + n.toNat := by
  have h := toNat_append16 (f ++ regBits x ++ regBits y) n
  rw [toNat_append16 (f ++ regBits x) (regBits y), toNat_append16 f (regBits x), regBits_toNat, regBits_toNat] at h
  exact h.trans (by omega)

theorem joinBytes_toNat (hi lo : Byte) : (joinBytes hi lo).toNat = hi.toNat * 256 + lo.toNat :=
  toNat_append16 hi lo

/-! ## Fields -/

theorem extract_toNat (w : Word) (k n : Nat) : (w.extractLsb' k n).toNat = w.toNat / 2 ^ k % 2 ^ n := by
  rw [BitVec.extractLsb'_toNat, Nat.shiftRight_eq_div_pow]

theorem family_toNat (w : Word) : (family w).toNat = w.toNat / 4096 := by
  have := w.isLt
  rw [family, extract_toNat]
  omega

theorem fieldX_val (w : Word) : (fieldX w).val = w.toNat / 256 % 16 := extract_toNat w 8 4

theorem fieldY_val (w : Word) : (fieldY w).val = w.toNat / 16 % 16 := extract_toNat w 4 4

theorem fieldN_toNat (w : Word) : (fieldN w).toNat = w.toNat % 16 := by
  rw [fieldN, extract_toNat]; omega

theorem fieldNN_toNat (w : Word) : (fieldNN w).toNat = w.toNat % 256 := by
  rw [fieldNN, extract_toNat]; omega

theorem fieldNNN_toNat (w : Word) : (fieldNNN w).toNat = w.toNat % 4096 := by
  rw [fieldNNN, extract_toNat]; omega

theorem highByte_toNat (w : Word) : (highByte w).toNat = w.toNat / 256 := by
  have := w.isLt
  rw [highByte, extract_toNat]
  omega

theorem lowByte_toNat (w : Word) : (lowByte w).toNat = w.toNat % 256 := by
  rw [lowByte, extract_toNat]; omega

@[simp] theorem joinBytes_high_low (w : Word) : joinBytes (highByte w) (lowByte w) = w := by
  apply BitVec.eq_of_toNat_eq
  rw [joinBytes_toNat, highByte_toNat, lowByte_toNat]
  omega

@[simp] theorem highByte_joinBytes (hi lo : Byte) : highByte (joinBytes hi lo) = hi := by
  apply BitVec.eq_of_toNat_eq
  rw [highByte_toNat, joinBytes_toNat]
  have := lo.isLt
  omega

@[simp] theorem lowByte_joinBytes (hi lo : Byte) : lowByte (joinBytes hi lo) = lo := by
  apply BitVec.eq_of_toNat_eq
  rw [lowByte_toNat, joinBytes_toNat]
  have := lo.isLt
  omega

/-! ## Fields of packed words -/

section
variable (f n : Nibble) (x y : Reg) (nn : Byte) (nnn : Addr12)

@[simp] theorem family_packNNN : family (packNNN f nnn) = f := by
  apply BitVec.eq_of_toNat_eq
  rw [family_toNat, packNNN_toNat]
  have := nnn.isLt
  omega

@[simp] theorem fieldNNN_packNNN : fieldNNN (packNNN f nnn) = nnn := by
  apply BitVec.eq_of_toNat_eq
  rw [fieldNNN_toNat, packNNN_toNat]
  have := nnn.isLt
  omega

@[simp] theorem family_packXNN : family (packXNN f x nn) = f := by
  apply BitVec.eq_of_toNat_eq
  rw [family_toNat, packXNN_toNat]
  have := nn.isLt
  omega

@[simp] theorem fieldX_packXNN : fieldX (packXNN f x nn) = x := by
  apply Fin.ext
  rw [fieldX_val, packXNN_toNat]
  have := nn.isLt
  omega

@[simp] theorem fieldNN_packXNN : fieldNN (packXNN f x nn) = nn := by
  apply BitVec.eq_of_toNat_eq
  rw [fieldNN_toNat, packXNN_toNat]
  have := nn.isLt
  omega

@[simp] theorem family_packXYN : family (packXYN f x y n) = f := by
  apply BitVec.eq_of_toNat_eq
  rw [family_toNat, packXYN_toNat]
  have := n.isLt
  omega

@[simp] theorem fieldX_packXYN : fieldX (packXYN f x y n) = x := by
  apply Fin.ext
  rw [fieldX_val, packXYN_toNat]
  have := n.isLt
  omega

@[simp] theorem fieldY_packXYN : fieldY (packXYN f x y n) = y := by
  apply Fin.ext
  rw [fieldY_val, packXYN_toNat]
  have := n.isLt
  omega

@[simp] theorem fieldN_packXYN : fieldN (packXYN f x y n) = n := by
  apply BitVec.eq_of_toNat_eq
  rw [fieldN_toNat, packXYN_toNat]
  have := n.isLt
  omega
end

/-! ## A word from its fields -/

theorem packNNN_fields (w : Word) : packNNN (family w) (fieldNNN w) = w := by
  apply BitVec.eq_of_toNat_eq
  rw [packNNN_toNat, family_toNat, fieldNNN_toNat]
  omega

theorem packXNN_fields (w : Word) : packXNN (family w) (fieldX w) (fieldNN w) = w := by
  apply BitVec.eq_of_toNat_eq
  rw [packXNN_toNat, family_toNat, fieldX_val, fieldNN_toNat]
  omega

theorem packXYN_fields (w : Word) : packXYN (family w) (fieldX w) (fieldY w) (fieldN w) = w := by
  apply BitVec.eq_of_toNat_eq
  rw [packXYN_toNat, family_toNat, fieldX_val, fieldY_val, fieldN_toNat]
  omega

end Sys2Proof
end

