-- ==== Sys2Proof/Laws/Exec.lean ====
section
/-!
SUPPORT. What the execute phase of each instruction can answer: one equation for an instruction that meets no error, and one case lemma
for each of the six that can. Provers cite these in place of unfolding a meaning.
-/
namespace Sys2Proof.Machine

variable (s : State)

/-- The state an error raised in the execute phase leaves. -/
def State.raised (s : State) (e : Fatal) : State := (s.setPc s.execAddr).takeFatal e

theorem State.raise_eq (e : Fatal) : s.raise e = .next (s.raised e) := rfl

/-- An error leaves the state before the step, with HALT, LOADED and the outputs set. -/
theorem State.raised_eq (e : Fatal) : s.raised e =
    { s with pc := s.pc - 2, halt := some e, loaded := true, out := { status := .fatal e, diag := .none, tone := false } } := rfl

/-! ## Instructions that meet no error -/

theorem exec_cls : exec .cls s = .next (s.setFb (Vector.replicate 2048 false)) := rfl
theorem exec_jp (nnn : Addr12) : exec (.jp nnn) s = .next (s.setPc (addressOperand nnn)) := rfl
theorem exec_jpV0 (nnn : Addr12) : exec (.jpV0 nnn) s = .next (s.setPc (s.offsetTarget nnn)) := rfl
theorem exec_seByte (x : Reg) (nn : Byte) : exec (.seByte x nn) s = .next (s.skipIf (s.getV x == nn)) := rfl
theorem exec_sneByte (x : Reg) (nn : Byte) : exec (.sneByte x nn) s = .next (s.skipIf (s.getV x != nn)) := rfl
theorem exec_seReg (x y : Reg) : exec (.seReg x y) s = .next (s.skipIf (s.getV x == s.getV y)) := rfl
theorem exec_sneReg (x y : Reg) : exec (.sneReg x y) s = .next (s.skipIf (s.getV x != s.getV y)) := rfl
theorem exec_ldByte (x : Reg) (nn : Byte) : exec (.ldByte x nn) s = .next (s.setV x nn) := rfl
theorem exec_addByte (x : Reg) (nn : Byte) : exec (.addByte x nn) s = .next (s.setV x (s.getV x + nn)) := rfl
theorem exec_ldReg (x y : Reg) : exec (.ldReg x y) s = .next (s.setV x (s.getV y)) := rfl
theorem exec_orReg (x y : Reg) : exec (.orReg x y) s = .next (s.setV x (s.getV x ||| s.getV y)) := rfl
theorem exec_andReg (x y : Reg) : exec (.andReg x y) s = .next (s.setV x (s.getV x &&& s.getV y)) := rfl
theorem exec_xorReg (x y : Reg) : exec (.xorReg x y) s = .next (s.setV x (s.getV x ^^^ s.getV y)) := rfl
theorem exec_addReg (x y : Reg) :
    exec (.addReg x y) s = .next ((s.setV vF (carryFlag (s.getV x) (s.getV y))).setV x (s.getV x + s.getV y)) := rfl
theorem exec_shr (x y : Reg) : exec (.shr x y) s =
    .next ((s.setV vF (shiftedOutRight (s.getV x))).setV x ((s.setV vF (shiftedOutRight (s.getV x))).getV x >>> 1)) := rfl
theorem exec_shl (x y : Reg) : exec (.shl x y) s =
    .next ((s.setV vF (shiftedOutLeft (s.getV x))).setV x ((s.setV vF (shiftedOutLeft (s.getV x))).getV x <<< 1)) := rfl
theorem exec_rnd (x : Reg) (nn : Byte) : exec (.rnd x nn) s = .next ((s.setV x (s.randomByte &&& nn)).countDraw) := rfl
theorem exec_ldI (nnn : Addr12) : exec (.ldI nnn) s = .next (s.setI (addressOperand nnn)) := rfl
theorem exec_addI (x : Reg) : exec (.addI x) s = .next (s.setI (s.i + (s.getV x).setWidth 16)) := rfl
theorem exec_ldVxDt (x : Reg) : exec (.ldVxDt x) s = .next (s.setV x s.dt) := rfl
theorem exec_ldDtVx (x : Reg) : exec (.ldDtVx x) s = .next (s.setDt (s.getV x)) := rfl
theorem exec_ldStVx (x : Reg) : exec (.ldStVx x) s = .next (s.setSt (s.getV x)) := rfl
theorem exec_skp (x : Reg) : exec (.skp x) s = .next (s.skipIf (s.keyPressed x)) := rfl
theorem exec_sknp (x : Reg) : exec (.sknp x) s = .next (s.skipIf (!s.keyPressed x)) := rfl

/-- The key wait: the least pressed key, or PC back at the word. -/
theorem exec_waitKey (x : Reg) : exec (.waitKey x) s =
    .next (match s.leastKey with | some k => s.setV x (keyByte k) | none => s.setPc (s.pc - 2)) := by
  simp only [exec, execWaitKey]
  cases s.leastKey <;> rfl

/-! ## Instructions that can meet an error -/

variable {s} {t : State}

/-- RET pops, or raises StackUnderflow on an empty stack. -/
theorem exec_ret_cases : (s.sp.val = 0 ∧ exec .ret s = .next (s.raised (.stackUnderflow s.execAddr))) ∨
    (∃ h : 0 < s.sp.val, exec .ret s = .next { s with sp := ⟨s.sp.val - 1, by omega⟩, pc := s.stack[s.sp.val - 1] }) := by
  by_cases h : 0 < s.sp.val
  · exact .inr ⟨h, by simp [exec, execRet, State.popReturn, h]⟩
  · exact .inl ⟨by omega, by simp [exec, execRet, State.popReturn, h, State.raise_eq]⟩

/-- CALL pushes and jumps, or raises StackOverflow on a full stack. -/
theorem exec_call_cases (nnn : Addr12) :
    (s.sp.val = 16 ∧ exec (.call nnn) s = .next (s.raised (.stackOverflow s.execAddr))) ∨
    (∃ h : s.sp.val < 16, exec (.call nnn) s =
      .next { s with stack := s.stack.set s.sp.val s.pc, sp := ⟨s.sp.val + 1, by omega⟩, pc := addressOperand nnn }) := by
  by_cases h : s.sp.val < 16
  · exact .inr ⟨h, by simp [exec, execCall, State.pushCall, h]⟩
  · exact .inl ⟨by omega, by simp [exec, execCall, State.pushCall, h, State.raise_eq]⟩

/-- A store instruction writes memory only, or raises AddressOutOfRange at its first address at or above 4096. -/
theorem storeBytes_complete_cases (s : State) (a : Nat) (bs : List Byte) :
    (∃ t, s.storeBytes a bs = .ok t ∧ s.complete (s.storeBytes a bs) = .next t ∧ t = s.setMem t.mem ∧
      (s.mem.wf = true → t.mem.wf = true)) ∨
    (s.params.memOob = .fault ∧ 4096 < a + bs.length ∧
      s.complete (s.storeBytes a bs) = .next (s.raised (.addressOutOfRange (max a 4096)))) := by
  rcases s.complete_cases (s.storeBytes a bs) with ⟨t, ht, hc⟩ | ⟨e, he, hc⟩
  · exact .inl ⟨t, ht, hc, State.storeBytes_ok ht⟩
  · obtain ⟨rfl, hm, hl⟩ := State.storeBytes_error he
    exact .inr ⟨hm, hl, hc⟩

/-- LD Vx, [I] writes registers up to `x` only, or raises AddressOutOfRange. -/
theorem exec_loadRegs_cases (x : Reg) :
    (∃ t, exec (.loadRegs x) s = .next t ∧ t = { s with v := t.v } ∧
      ∀ q, t.getV q = if q ≤ x then s.mem.read ((s.i.toNat + q.val) % 4096) else s.getV q) ∨
    (∃ q : Reg, q ≤ x ∧ s.params.memOob = .fault ∧ 4096 ≤ s.i.toNat + q.val ∧
      exec (.loadRegs x) s = .next (s.raised (.addressOutOfRange (s.i.toNat + q.val)))) := by
  rcases s.complete_cases (s.loadRange s.i.toNat (registerRange x)) with ⟨t, ht, hc⟩ | ⟨e, he, hc⟩
  · obtain ⟨h1, h2⟩ := State.loadRange_ok ht
    exact .inl ⟨t, hc, h1, fun q => by rw [h2 q]; simp only [mem_registerRange]⟩
  · obtain ⟨q, hq, rfl, hm, ha⟩ := State.loadRange_error he
    exact .inr ⟨q, (mem_registerRange x q).mp hq, hm, ha, hc⟩

/-- Which errors drawing can meet. -/
theorem State.drawSprite_error {x y : Reg} {n : Nibble} {e : Fatal} (h : s.drawSprite x y n = .error e) :
    (∃ a, s.params.memOob = .fault ∧ 4096 ≤ a ∧ e = .addressOutOfRange a) ∨
    (∃ px py, s.params.drawOob = .fault ∧ ¬ OnGrid px py ∧ e = .drawOutOfBounds px py) := by
  have hrow : ∀ (cs : List Nat) (d : Drawing) (x0 py : Nat) (row : Byte),
      d.row s.params.drawOob x0 py row cs = .error e →
      ∃ px py, s.params.drawOob = .fault ∧ ¬ OnGrid px py ∧ e = .drawOutOfBounds px py := by
    intro cs
    induction cs with
    | nil => intro d x0 py row h; cases h
    | cons c cs ih =>
      intro d x0 py row h
      simp only [Drawing.row] at h
      split at h
      · split at h
        · exact ih _ _ _ _ h
        · next e' he =>
          cases h
          simp only [Drawing.pixel] at he
          split at he
          · cases he
          · next hg =>
            split at he
            · cases he
            · next hf => cases he; exact ⟨_, _, hf, hg, rfl⟩
      · exact ih _ _ _ _ h
  have hrows : ∀ (rs : List Nat) (d : Drawing) (x0 y0 : Nat), s.drawRows x0 y0 d rs = .error e →
      (∃ a, s.params.memOob = .fault ∧ 4096 ≤ a ∧ e = .addressOutOfRange a) ∨
      (∃ px py, s.params.drawOob = .fault ∧ ¬ OnGrid px py ∧ e = .drawOutOfBounds px py) := by
    intro rs
    induction rs with
    | nil => intro d x0 y0 h; cases h
    | cons r rs ih =>
      intro d x0 y0 h
      simp only [State.drawRows] at h
      split at h
      · next e' he =>
        cases h
        obtain ⟨rfl, hm, ha⟩ := State.memRead_error he
        exact .inl ⟨_, hm, ha, rfl⟩
      · split at h
        · exact ih _ _ _ h
        · next e' he => cases h; exact .inr (hrow _ _ _ _ _ he)
  exact hrows _ _ _ _ h

/-- DRW changes the framebuffer, VF and the diagnostic only, or raises one of its two errors. -/
theorem exec_drw_cases (x y : Reg) (n : Nibble) :
    (∃ d, s.drawSprite x y n = .ok d ∧ exec (.drw x y n) s = .next
      { s with v := s.v.set 15 (collisionFlag d.hit), fb := d.fb,
               out := if d.clipped then { s.out with diag := .drawClipped (encode (.drw x y n)) s.execAddr } else s.out }) ∨
    (∃ e, s.drawSprite x y n = .error e ∧ exec (.drw x y n) s = .next (s.raised e) ∧
      ((∃ a, s.params.memOob = .fault ∧ 4096 ≤ a ∧ e = .addressOutOfRange a) ∨
       (∃ px py, s.params.drawOob = .fault ∧ ¬ OnGrid px py ∧ e = .drawOutOfBounds px py))) := by
  cases h : s.drawSprite x y n with
  | ok d =>
    refine .inl ⟨d, rfl, ?_⟩
    simp only [exec, execDrw, h]
    split <;> simp_all [State.report, State.setFb, State.setV]
  | error e =>
    refine .inr ⟨e, rfl, ?_, State.drawSprite_error h⟩
    simp [exec, execDrw, h, State.raise_eq]

end Sys2Proof.Machine
end

