-- ==== Sys2Proof/Laws/PerInstr.lean ====
section
/-!
SUPPORT. The family TableRow: the word of an instruction matches the instruction's row of spec/opcode_table.json, whatever its operands.
-/
namespace Sys2Proof.Laws

/-! ## A packed word under the masks of the table -/

theorem and_top (f : Nibble) : f &&& 0xF#4 = f := by revert f; decide

theorem packNNN_and_F000 (f : Nibble) (nnn : Addr12) : packNNN f nnn &&& 0xF000 = packNNN f 0 := by
  show (f ++ nnn : BitVec (4 + 12)) &&& (0xF#4 ++ 0#12) = (f ++ 0#12)
  rw [BitVec.and_append, and_top, BitVec.and_zero]

theorem packXNN_and_F000 (f : Nibble) (x : Reg) (nn : Byte) : packXNN f x nn &&& 0xF000 = packNNN f 0 := by
  show (f ++ regBits x ++ nn : BitVec (4 + 4 + 8)) &&& (0xF#4 ++ 0#4 ++ 0#8) = _
  rw [BitVec.and_append, BitVec.and_append, and_top, BitVec.and_zero, BitVec.and_zero]
  revert f; decide

theorem packXNN_and_F0FF (f : Nibble) (x : Reg) (nn : Byte) : packXNN f x nn &&& 0xF0FF = packXNN f 0 nn := by
  show (f ++ regBits x ++ nn : BitVec (4 + 4 + 8)) &&& (0xF#4 ++ 0#4 ++ BitVec.allOnes 8) = _
  rw [BitVec.and_append, BitVec.and_append, and_top, BitVec.and_zero, BitVec.and_allOnes]
  rfl

theorem packXYN_and_F000 (f : Nibble) (x y : Reg) (n : Nibble) : packXYN f x y n &&& 0xF000 = packNNN f 0 := by
  show (f ++ regBits x ++ regBits y ++ n : BitVec (4 + 4 + 4 + 4)) &&& (0xF#4 ++ 0#4 ++ 0#4 ++ 0#4) = _
  rw [BitVec.and_append, BitVec.and_append, BitVec.and_append, and_top, BitVec.and_zero, BitVec.and_zero, BitVec.and_zero]
  revert f; decide

theorem packXYN_and_F00F (f : Nibble) (x y : Reg) (n : Nibble) : packXYN f x y n &&& 0xF00F = packXYN f 0 0 n := by
  show (f ++ regBits x ++ regBits y ++ n : BitVec (4 + 4 + 4 + 4)) &&& (0xF#4 ++ 0#4 ++ 0#4 ++ 0xF#4) = _
  rw [BitVec.and_append, BitVec.and_append, BitVec.and_append, and_top, and_top, BitVec.and_zero, BitVec.and_zero]
  rfl

namespace TableRow

/-- The instruction's row is one of the table's, and the instruction's word matches it. -/
def Statement (i : Instr) : Prop := i.row ∈ opcodeTable ∧ i.row.matchesWord (encode i) = true

/-- What the lemma of one instruction comes down to: its word under the mask of its row. -/
theorem of_and {i : Instr} (hr : i.row ∈ opcodeTable) (h : encode i &&& i.row.mask = i.row.bits) : Statement i :=
  ⟨hr, by simp [OpcodeRow.matchesWord, h]⟩

theorem cls : Statement .cls := of_and (by decide) rfl

theorem ret : Statement .ret := of_and (by decide) rfl

theorem jp (nnn : Addr12) : Statement (.jp nnn) :=
  of_and (show (Instr.jp 0).row ∈ opcodeTable by decide) (packNNN_and_F000 0x1 nnn)

theorem call (nnn : Addr12) : Statement (.call nnn) :=
  of_and (show (Instr.call 0).row ∈ opcodeTable by decide) (packNNN_and_F000 0x2 nnn)

theorem seByte (x : Reg) (nn : Byte) : Statement (.seByte x nn) :=
  of_and (show (Instr.seByte 0 0).row ∈ opcodeTable by decide) (packXNN_and_F000 0x3 x nn)

theorem sneByte (x : Reg) (nn : Byte) : Statement (.sneByte x nn) :=
  of_and (show (Instr.sneByte 0 0).row ∈ opcodeTable by decide) (packXNN_and_F000 0x4 x nn)

theorem seReg (x : Reg) (y : Reg) : Statement (.seReg x y) :=
  of_and (show (Instr.seReg 0 0).row ∈ opcodeTable by decide) (packXYN_and_F00F 0x5 x y 0x0)

theorem ldByte (x : Reg) (nn : Byte) : Statement (.ldByte x nn) :=
  of_and (show (Instr.ldByte 0 0).row ∈ opcodeTable by decide) (packXNN_and_F000 0x6 x nn)

theorem addByte (x : Reg) (nn : Byte) : Statement (.addByte x nn) :=
  of_and (show (Instr.addByte 0 0).row ∈ opcodeTable by decide) (packXNN_and_F000 0x7 x nn)

theorem ldReg (x : Reg) (y : Reg) : Statement (.ldReg x y) :=
  of_and (show (Instr.ldReg 0 0).row ∈ opcodeTable by decide) (packXYN_and_F00F 0x8 x y 0x0)

theorem orReg (x : Reg) (y : Reg) : Statement (.orReg x y) :=
  of_and (show (Instr.orReg 0 0).row ∈ opcodeTable by decide) (packXYN_and_F00F 0x8 x y 0x1)

theorem andReg (x : Reg) (y : Reg) : Statement (.andReg x y) :=
  of_and (show (Instr.andReg 0 0).row ∈ opcodeTable by decide) (packXYN_and_F00F 0x8 x y 0x2)

theorem xorReg (x : Reg) (y : Reg) : Statement (.xorReg x y) :=
  of_and (show (Instr.xorReg 0 0).row ∈ opcodeTable by decide) (packXYN_and_F00F 0x8 x y 0x3)

theorem addReg (x : Reg) (y : Reg) : Statement (.addReg x y) :=
  of_and (show (Instr.addReg 0 0).row ∈ opcodeTable by decide) (packXYN_and_F00F 0x8 x y 0x4)

theorem shr (x : Reg) (y : Reg) : Statement (.shr x y) :=
  of_and (show (Instr.shr 0 0).row ∈ opcodeTable by decide) (packXYN_and_F00F 0x8 x y 0x6)

theorem shl (x : Reg) (y : Reg) : Statement (.shl x y) :=
  of_and (show (Instr.shl 0 0).row ∈ opcodeTable by decide) (packXYN_and_F00F 0x8 x y 0xE)

theorem sneReg (x : Reg) (y : Reg) : Statement (.sneReg x y) :=
  of_and (show (Instr.sneReg 0 0).row ∈ opcodeTable by decide) (packXYN_and_F00F 0x9 x y 0x0)

theorem ldI (nnn : Addr12) : Statement (.ldI nnn) :=
  of_and (show (Instr.ldI 0).row ∈ opcodeTable by decide) (packNNN_and_F000 0xA nnn)

theorem jpV0 (nnn : Addr12) : Statement (.jpV0 nnn) :=
  of_and (show (Instr.jpV0 0).row ∈ opcodeTable by decide) (packNNN_and_F000 0xB nnn)

theorem rnd (x : Reg) (nn : Byte) : Statement (.rnd x nn) :=
  of_and (show (Instr.rnd 0 0).row ∈ opcodeTable by decide) (packXNN_and_F000 0xC x nn)

theorem drw (x : Reg) (y : Reg) (n : Nibble) : Statement (.drw x y n) :=
  of_and (show (Instr.drw 0 0 0).row ∈ opcodeTable by decide) (packXYN_and_F000 0xD x y n)

theorem ldVxDt (x : Reg) : Statement (.ldVxDt x) :=
  of_and (show (Instr.ldVxDt 0).row ∈ opcodeTable by decide) (packXNN_and_F0FF 0xF x 0x07)

theorem ldDtVx (x : Reg) : Statement (.ldDtVx x) :=
  of_and (show (Instr.ldDtVx 0).row ∈ opcodeTable by decide) (packXNN_and_F0FF 0xF x 0x15)

theorem ldStVx (x : Reg) : Statement (.ldStVx x) :=
  of_and (show (Instr.ldStVx 0).row ∈ opcodeTable by decide) (packXNN_and_F0FF 0xF x 0x18)

theorem addI (x : Reg) : Statement (.addI x) :=
  of_and (show (Instr.addI 0).row ∈ opcodeTable by decide) (packXNN_and_F0FF 0xF x 0x1E)

theorem storeRegs (x : Reg) : Statement (.storeRegs x) :=
  of_and (show (Instr.storeRegs 0).row ∈ opcodeTable by decide) (packXNN_and_F0FF 0xF x 0x55)

theorem loadRegs (x : Reg) : Statement (.loadRegs x) :=
  of_and (show (Instr.loadRegs 0).row ∈ opcodeTable by decide) (packXNN_and_F0FF 0xF x 0x65)

theorem skp (x : Reg) : Statement (.skp x) :=
  of_and (show (Instr.skp 0).row ∈ opcodeTable by decide) (packXNN_and_F0FF 0xE x 0x9E)

theorem sknp (x : Reg) : Statement (.sknp x) :=
  of_and (show (Instr.sknp 0).row ∈ opcodeTable by decide) (packXNN_and_F0FF 0xE x 0xA1)

theorem waitKey (x : Reg) : Statement (.waitKey x) :=
  of_and (show (Instr.waitKey 0).row ∈ opcodeTable by decide) (packXNN_and_F0FF 0xF x 0x0A)

theorem storeBcd (x : Reg) : Statement (.storeBcd x) :=
  of_and (show (Instr.storeBcd 0).row ∈ opcodeTable by decide) (packXNN_and_F0FF 0xF x 0x33)

end TableRow

end Sys2Proof.Laws
end

