-- ==== Sys2Proof/Laws/Step.lean ====
section
/-!
SUPPORT. Everything one step can do, said once: the inversion of `step`.
-/
namespace Sys2Proof.Machine

/-- An unknown opcode is reported as the word it is. -/
theorem decode_unknown {p : Profile} {w u : Word} (h : decode p w = .unknownOpcode u) : u = w := by
  unfold decode decodeFamily0 decodeFamily8 decodeFamilyE decodeFamilyF at h
  repeat' split at h
  all_goals (cases h; try rfl)

/-- The fetch of a fetchable word. -/
theorem State.fetch_fetchable {s : State} (h : s.Fetchable) : s.fetch = .ok s.wordAtPc := s.fetch_of_reach h

/-- A fetch that succeeds had both bytes reach memory. -/
theorem State.fetchable_of_fetch {s : State} {w : Word} (h : s.fetch = .ok w) : s.Fetchable ∧ w = s.wordAtPc := by
  have hf : s.Fetchable := by
    simp only [State.fetch] at h
    split at h
    · cases h
    · split at h
      · cases h
      · next lo hlo => exact (State.memRead_ok hlo).2
  rw [State.fetch_fetchable hf] at h
  exact ⟨hf, (Except.ok.inj h).symm⟩

/-- A halted core's step. -/
theorem step_halted {s : State} {e : Fatal} (h : s.halt = some e) : step s = .next (s.stepHalted e) := by
  simp [step, h]

/-- The step of a running core whose fetch fails. -/
theorem step_fetch_error {s : State} {e : Fatal} (h0 : s.halt = none) (h : s.fetch = .error e) : step s = .next (s.takeFatal e) := by
  simp [step, h0, h]

/-- The step of a running core whose word is fetched. -/
theorem step_fetched {s : State} (h0 : s.halt = none) (h : s.Fetchable) : step s = s.beginStep.runDecoded s.decoded := by
  simp [step, h0, State.fetch_fetchable h, State.decoded]

/-- Everything a step of a running core can do: a fetch error, an instruction and the end of its step, or an unknown opcode. -/
theorem step_cases {s t : State} (h0 : s.halt = none) (h : step s = .next t) :
    (∃ e, s.fetch = .error e ∧ ¬ s.Fetchable ∧ t = s.takeFatal e) ∨
    (s.Fetchable ∧ ∃ i u, s.decoded = .instr i ∧ exec i s.beginStep = .next u ∧ t = u.finishStep) ∨
    (s.Fetchable ∧ s.decoded = .unknownOpcode s.wordAtPc ∧ t = (s.beginStep.execUnknown s.wordAtPc).tick) := by
  cases hf : s.fetch with
  | error e =>
    rw [step_fetch_error h0 hf] at h
    cases h
    refine .inl ⟨e, rfl, fun hr => ?_, rfl⟩
    rw [State.fetch_fetchable hr] at hf
    cases hf
  | ok w =>
    obtain ⟨hr, rfl⟩ := State.fetchable_of_fetch hf
    rw [step_fetched h0 hr] at h
    cases hd : s.decoded with
    | instr i =>
      simp only [hd, State.runDecoded] at h
      split at h
      · next u hu => cases h; exact .inr (.inl ⟨hr, i, u, rfl, hu, rfl⟩)
      · cases h
      · cases h
    | unknownOpcode w =>
      obtain rfl : w = s.wordAtPc := decode_unknown hd
      simp only [hd, State.runDecoded] at h
      cases h
      exact .inr (.inr ⟨hr, rfl, by simp [State.execUnknown, State.finishStep, h0]⟩)

/-- A nonzero timer, as the tick tests it and as a number. -/
theorem timer_nonzero (b : Byte) : (b != 0) = decide (0 < b.toNat) := by
  by_cases h : b = 0
  · subst h; rfl
  · have hn : b.toNat ≠ 0 := fun e => h (BitVec.eq_of_toNat_eq (by simpa using e))
    have hb : (b != 0) = true := by simpa using h
    rw [hb]
    exact (decide_eq_true (by omega)).symm

end Sys2Proof.Machine
end

