-- ==== Sys2Proof/Machine/Listing.lean ====
section
/-!
DEFINITION. The assembler notation of spec/30_encoding.md R81 and R82 (log entry 25): the text of an instruction, and the bytes of a
listing with labels and the directives `.byte` and `.word`. The machine does not depend on it.
-/
namespace Sys2Proof.Machine

/-- A number in `0x` hexadecimal. -/
def hexText (n : Nat) : String := "0x" ++ String.ofList (Nat.toDigits 16 n)

/-- `V0` to `VF`. -/
def regText (r : Reg) : String := "V" ++ String.ofList ((Nat.toDigits 16 r.val).map Char.toUpper)

/-- The text of an instruction (R81). -/
def instrText : Instr → String
  | .cls => "CLS"
  | .ret => "RET"
  | .jp nnn => "JP " ++ hexText nnn.toNat
  | .call nnn => "CALL " ++ hexText nnn.toNat
  | .seByte x nn => "SE " ++ regText x ++ ", " ++ hexText nn.toNat
  | .sneByte x nn => "SNE " ++ regText x ++ ", " ++ hexText nn.toNat
  | .seReg x y => "SE " ++ regText x ++ ", " ++ regText y
  | .ldByte x nn => "LD " ++ regText x ++ ", " ++ hexText nn.toNat
  | .addByte x nn => "ADD " ++ regText x ++ ", " ++ hexText nn.toNat
  | .ldReg x y => "LD " ++ regText x ++ ", " ++ regText y
  | .orReg x y => "OR " ++ regText x ++ ", " ++ regText y
  | .andReg x y => "AND " ++ regText x ++ ", " ++ regText y
  | .xorReg x y => "XOR " ++ regText x ++ ", " ++ regText y
  | .addReg x y => "ADD " ++ regText x ++ ", " ++ regText y
  | .shr x y => "SHR " ++ regText x ++ ", " ++ regText y
  | .shl x y => "SHL " ++ regText x ++ ", " ++ regText y
  | .sneReg x y => "SNE " ++ regText x ++ ", " ++ regText y
  | .ldI nnn => "LD I, " ++ hexText nnn.toNat
  | .jpV0 nnn => "JP V0, " ++ hexText nnn.toNat
  | .rnd x nn => "RND " ++ regText x ++ ", " ++ hexText nn.toNat
  | .drw x y n => "DRW " ++ regText x ++ ", " ++ regText y ++ ", " ++ hexText n.toNat
  | .ldVxDt x => "LD " ++ regText x ++ ", DT"
  | .ldDtVx x => "LD DT, " ++ regText x
  | .ldStVx x => "LD ST, " ++ regText x
  | .addI x => "ADD I, " ++ regText x
  | .storeRegs x => "LD [I], " ++ regText x
  | .loadRegs x => "LD " ++ regText x ++ ", [I]"
  | .skp x => "SKP " ++ regText x
  | .sknp x => "SKNP " ++ regText x
  | .waitKey x => "LD " ++ regText x ++ ", K"
  | .storeBcd x => "LD B, " ++ regText x

/-- The instructions that take an `addr`, where a label may stand (R81). -/
inductive AddrForm where
  | jp | call | ldI | jpV0
deriving DecidableEq, Repr

def AddrForm.instr : AddrForm → Addr12 → Instr
  | .jp, a => .jp a
  | .call, a => .call a
  | .ldI, a => .ldI a
  | .jpV0, a => .jpV0 a

/-- What a listing line holds (R81, R82). A label is a number that names it. -/
inductive LineItem where
  | instr (i : Instr)
  | toLabel (form : AddrForm) (label : Nat)
  | byte (b : Byte)
  | word (w : Word)
deriving DecidableEq, Repr

/-- A line: an optional label, and its item. -/
structure Line where
  label : Option Nat
  item  : LineItem
deriving DecidableEq, Repr

/-- How many bytes the line places. -/
def LineItem.size : LineItem → Nat
  | .instr _ => 2
  | .toLabel _ _ => 2
  | .byte _ => 1
  | .word _ => 2

/-- The address of the first line with the label, when the listing begins at `a` (R81). -/
def labelAddress (label : Nat) : Nat → List Line → Option Nat
  | _, [] => none
  | a, ln :: rest => if ln.label = some label then some a else labelAddress label (a + ln.item.size) rest

/-- The bytes of one line, or none when its label is not in the listing (R81, R82). -/
def LineItem.bytes (origin : Nat) (listing : List Line) : LineItem → Option (List Byte)
  | .instr i => some (encodeBytes i)
  | .toLabel form label =>
    match labelAddress label origin listing with
    | some a => some (encodeBytes (form.instr (BitVec.ofNat 12 a)))
    | none => none
  | .byte b => some [b]
  | .word w => some [highByte w, lowByte w]

/-- The bytes of the lines, within the whole listing that labels refer to. -/
def linesBytes (origin : Nat) (listing : List Line) : List Line → Option (List Byte)
  | [] => some []
  | ln :: rest =>
    match ln.item.bytes origin listing, linesBytes origin listing rest with
    | some bs, some more => some (bs ++ more)
    | _, _ => none

/-- The program of a listing that begins at 0x200, or none when a label is missing. -/
def assemble (listing : List Line) : Option (List Byte) := linesBytes 0x200 listing listing

end Sys2Proof.Machine
end

