-- ==== Sys2Proof/Tests/Slice0.lean ====
section
/-!
SUPPORT. Tests. Every expected value is from spec/95_test_vectors.md, whose row is named where there is one, or from an encoding of
spec/30_encoding.md written out by hand. After them, one witness for each statement with hypotheses: states and operands that meet all
of them together.
-/
namespace Sys2Proof.Tests
open Sys2Proof Sys2Proof.Machine

/-! ## Well-formedness: the optional instructions are refused under BASE, and nothing else is -/

theorem test_skp_needs_ext : (Instr.skp 5).wellFormed .base = false ∧ (Instr.skp 5).wellFormed .ext = true := by decide
theorem test_sknp_needs_ext : (Instr.sknp 5).wellFormed .base = false ∧ (Instr.sknp 5).wellFormed .ext = true := by decide
theorem test_waitKey_needs_ext : (Instr.waitKey 3).wellFormed .base = false ∧ (Instr.waitKey 3).wellFormed .ext = true := by decide
theorem test_storeBcd_needs_ext : (Instr.storeBcd 6).wellFormed .base = false ∧ (Instr.storeBcd 6).wellFormed .ext = true := by
  decide

/-! ## Decoding: words written out from the patterns of the table, distinct nibbles in distinct fields -/

theorem test_decode_family0 : decode .base 0x00E0 = .instr .cls ∧ decode .base 0x00EE = .instr .ret := by decide
theorem test_decode_flow : decode .base 0x1ABC = .instr (.jp 0xABC) ∧ decode .base 0x2DEF = .instr (.call 0xDEF) ∧
    decode .base 0xB123 = .instr (.jpV0 0x123) := by decide
theorem test_decode_skip : decode .base 0x3A5C = .instr (.seByte 10 0x5C) ∧ decode .base 0x4B6D = .instr (.sneByte 11 0x6D) ∧
    decode .base 0x5120 = .instr (.seReg 1 2) ∧ decode .base 0x9FE0 = .instr (.sneReg 15 14) := by decide
theorem test_decode_byte : decode .base 0x6FAB = .instr (.ldByte 15 0xAB) ∧ decode .base 0x7220 = .instr (.addByte 2 0x20) ∧
    decode .base 0xC30F = .instr (.rnd 3 0x0F) := by decide
theorem test_decode_copy_bitwise : decode .base 0x8120 = .instr (.ldReg 1 2) ∧ decode .base 0x8341 = .instr (.orReg 3 4) ∧
    decode .base 0x8562 = .instr (.andReg 5 6) ∧ decode .base 0x8783 = .instr (.xorReg 7 8) := by decide
theorem test_decode_arithmetic : decode .base 0x89A4 = .instr (.addReg 9 10) ∧ decode .base 0x8BC6 = .instr (.shr 11 12) ∧
    decode .base 0x8DEE = .instr (.shl 13 14) := by decide
theorem test_decode_index : decode .base 0xA9BC = .instr (.ldI 0x9BC) ∧ decode .base 0xF41E = .instr (.addI 4) ∧
    decode .base 0xF155 = .instr (.storeRegs 1) ∧ decode .base 0xFF65 = .instr (.loadRegs 15) := by decide
theorem test_decode_draw : decode .base 0xD123 = .instr (.drw 1 2 3) := by decide
theorem test_decode_timers : decode .base 0xF107 = .instr (.ldVxDt 1) ∧ decode .base 0xF015 = .instr (.ldDtVx 0) ∧
    decode .base 0xF218 = .instr (.ldStVx 2) := by decide
theorem test_decode_ext : decode .ext 0xE59E = .instr (.skp 5) ∧ decode .ext 0xE5A1 = .instr (.sknp 5) ∧
    decode .ext 0xF30A = .instr (.waitKey 3) ∧ decode .ext 0xF633 = .instr (.storeBcd 6) := by decide
theorem test_decode_ext_under_base : decode .base 0xE09E = .unknownOpcode 0xE09E ∧ decode .base 0xE5A1 = .unknownOpcode 0xE5A1 ∧
    decode .base 0xF30A = .unknownOpcode 0xF30A ∧ decode .base 0xF633 = .unknownOpcode 0xF633 := by decide
theorem test_decode_unknown : decode .ext 0x0000 = .unknownOpcode 0x0000 ∧ decode .ext 0x01E0 = .unknownOpcode 0x01E0 ∧
    decode .ext 0x5121 = .unknownOpcode 0x5121 ∧ decode .ext 0x8125 = .unknownOpcode 0x8125 ∧
    decode .ext 0x9121 = .unknownOpcode 0x9121 ∧ decode .ext 0xF0FF = .unknownOpcode 0xF0FF := by decide
theorem test_decodeTableWord : decodeTableWord 16 0xD123 = some (.drw 1 2 3) ∧ decodeTableWord 16 0xF633 = some (.storeBcd 6) ∧
    decodeTableWord 16 0x8125 = none := by decide

/-! ## One step -/

/-- The state of a result. -/
def stateOf : Result → State
  | .next t => t
  | .fault r => nomatch r
  | .refused _ => State.reset

/-- Reset, with PC at `a`, the bytes of `w` there, and the registers of the list. -/
def start (a : Nat) (w : Word) (regs : List (Reg × Byte)) : State :=
  { State.reset with
    pc := BitVec.ofNat 16 a
    mem := (State.reset.mem.write (a % 4096) (highByte w)).write ((a + 1) % 4096) (lowByte w)
    v := regs.foldl (fun v r => v.set r.1 r.2) State.reset.v }

/-- The state after one step. -/
def after (s : State) : State := stateOf (step s)

def withI (i : Word) (s : State) : State := { s with i := i }
def withByte (a : Nat) (b : Byte) (s : State) : State := { s with mem := s.mem.write a b }
def withTimers (dt st : Byte) (s : State) : State := { s with dt := dt, st := st }
def memFault (s : State) : State := { s with params := { s.params with memOob := .fault } }
def drawFault (s : State) : State := { s with params := { s.params with drawOob := .fault } }
def ext (s : State) : State := { s with params := { s.params with profile := .ext } }
def withKey (k : Reg) (s : State) : State := { s with key := s.key.set k true }
def withCell (k : Fin 2048) (s : State) : State := { s with fb := s.fb.set k true }
def withStack (sp : Fin 17) (slot : Word) (s : State) : State := { s with sp := sp, stack := Vector.replicate 16 slot }

/-- What a fatal error leaves of the state before the step (R97, R203). -/
def fatal (e : Fatal) (s : State) : State :=
  { s with halt := some e, loaded := true, out := { status := .fatal e, diag := .none, tone := false } }

/-! ### The cycle -/

/-- CY2. -/
theorem test_unknown_word : (after (start 0x200 0x0000 [] |> withTimers 3 0)).pc = 0x202 ∧ (after (start 0x200 0x0000 [] |> withTimers 3 0)).dt = 2 ∧
    (after (start 0x200 0x0000 [])).out.diag = .unknownOpcode 0x0000 0x200 := by decide

/-- CY6. -/
theorem test_odd_address : (after (start 0x301 0x6A55 [])).getV 10 = 0x55 ∧ (after (start 0x301 0x6A55 [])).pc = 0x303 := by decide

/-- CY7: the second byte is byte 0 of the font. -/
theorem test_fetch_wraps : (after (start 0xFFF 0x12F0 [])).pc = 0x2F0 := by decide

/-- CY8. -/
theorem test_fetch_faults : after (start 0xFFF 0x12F0 [] |> memFault) = fatal (.addressOutOfRange 0x1000) (start 0xFFF 0x12F0 [] |> memFault) := rfl

/-- CY9. -/
theorem test_pc_wraps : (after (start 0xFFFE 0x6001 [])).getV 0 = 1 ∧ (after (start 0xFFFE 0x6001 [])).pc = 0 := by decide

/-- CY10. -/
theorem test_halted_step : after (start 0x200 0x6001 [] |> withTimers 5 0 |> fatal (.stackOverflow 0x200)) =
    (start 0x200 0x6001 [] |> withTimers 5 0 |> fatal (.stackOverflow 0x200)) := rfl

/-! ### Display -/

/-- DS1. -/
theorem test_cls : (after (start 0x200 0x00E0 [] |> withCell 0 |> withCell 2047)).fb = Vector.replicate 2048 false := rfl

/-- DS10. -/
theorem test_drw_collides : let t := after (start 0x200 0xD011 [] |> withI 0x300 |> withByte 0x300 0xC0 |> withCell 0)
    t.fb[0] = false ∧ t.fb[1] = true ∧ t.fb[2] = false ∧ t.getV 15 = 1 := by decide

/-- DS9. -/
theorem test_drw_reads_vf_before_writing_it : let t := after (start 0x200 0xDF01 [(15, 3)] |> withI 0x300 |> withByte 0x300 0x80)
    t.fb[3] = true ∧ t.fb[0] = false ∧ t.getV 15 = 0 := by decide

/-! ### Control transfer -/

/-- FL2. -/
theorem test_ret : let t := after (start 0x300 0x00EE [] |> withStack 1 0x208)
    t.sp = 0 ∧ t.pc = 0x208 ∧ t.stack[0] = 0x208 := by decide

/-- FL3 and TM10. -/
theorem test_ret_underflow : after (start 0x200 0x00EE [] |> withTimers 5 0) = fatal (.stackUnderflow 0x200) (start 0x200 0x00EE [] |> withTimers 5 0) := rfl

/-- FL11. -/
theorem test_call : let t := after (start 0x200 0x2500 [] |> withStack 15 0)
    t.stack[15] = 0x202 ∧ t.stack[14] = 0 ∧ t.sp = 16 ∧ t.pc = 0x500 := by decide

/-- FL4. -/
theorem test_call_overflow : after (start 0x300 0x2400 [] |> withStack 16 0 |> withTimers 4 0) =
    fatal (.stackOverflow 0x300) (start 0x300 0x2400 [] |> withStack 16 0 |> withTimers 4 0) := rfl

/-- FL6. -/
theorem test_jp : (after (start 0x200 0x1201 [])).pc = 0x201 := by decide

/-- FL7. -/
theorem test_jpV0 : (after (start 0x200 0xBFFF [(0, 0xFF)])).pc = 0x10FE := by decide

/-! ### Skips -/

/-- SK1 and SK2. -/
theorem test_seByte : (after (start 0x200 0x3342 [(3, 0x42)])).pc = 0x204 ∧ (after (start 0x200 0x3343 [(3, 0x42)])).pc = 0x202 := by decide

/-- SK9. -/
theorem test_seByte_wraps : (after (start 0xFFFC 0x3000 [])).pc = 0 := by decide

/-- SK3 and SK4. -/
theorem test_sneByte : (after (start 0x200 0x4342 [(3, 0x42)])).pc = 0x202 ∧ (after (start 0x200 0x4300 [(3, 0x42)])).pc = 0x204 := by decide

/-- SK5 and SK6. -/
theorem test_seReg : (after (start 0x200 0x5010 [(0, 5), (1, 5)])).pc = 0x204 ∧ (after (start 0x200 0x5550 [(5, 9)])).pc = 0x204 := by decide

/-- SK7 and SK8. -/
theorem test_sneReg : (after (start 0x200 0x9010 [(0, 4), (1, 5)])).pc = 0x204 ∧ (after (start 0x200 0x9550 [(5, 9)])).pc = 0x202 := by decide

/-! ### Register loads and arithmetic -/

/-- AL1. -/
theorem test_ldByte : (after (start 0x200 0x6FAB [])).getV 15 = 0xAB := by decide

/-- AL2. -/
theorem test_addByte_no_flag : (after (start 0x200 0x7220 [(2, 0xF0), (15, 0x55)])).v = (start 0x200 0x7220 [(2, 0x10), (15, 0x55)]).v := by decide

/-- AL5. -/
theorem test_ldReg : (after (start 0x200 0x8010 [(1, 0x7A)])).v = (start 0x200 0x8010 [(0, 0x7A), (1, 0x7A)]).v := by decide

/-- AL6. -/
theorem test_orReg : (after (start 0x200 0x8011 [(0, 0x0F), (1, 0xF0), (15, 7)])).v = (start 0x200 0 [(0, 0xFF), (1, 0xF0), (15, 7)]).v := by decide

/-- AL7. -/
theorem test_andReg : (after (start 0x200 0x8012 [(0, 0x3C), (1, 0x0F)])).getV 0 = 0x0C := by decide

/-- AL8 and AL9. -/
theorem test_xorReg : (after (start 0x200 0x8013 [(0, 0x3C), (1, 0x0F)])).getV 0 = 0x33 ∧ (after (start 0x200 0x8003 [(0, 0x3C)])).getV 0 = 0 := by decide

/-- W1 and AL13. -/
theorem test_addReg : (after (start 0x200 0x8014 [(0, 0xFA), (1, 0x0A)])).v = (start 0x200 0 [(0, 4), (1, 0x0A), (15, 1)]).v ∧
    (after (start 0x200 0x80F4 [(0, 2), (15, 1)])).v = (start 0x200 0 [(0, 3)]).v := by decide

/-- AL14. -/
theorem test_addReg_to_vf : (after (start 0x200 0x8F14 [(15, 0x80), (1, 0x90)])).getV 15 = 0x10 := by decide

/-- AL17. -/
theorem test_shr : (after (start 0x200 0x8016 [(0, 2), (1, 0xFF)])).v = (start 0x200 0 [(0, 1), (1, 0xFF)]).v := by decide

/-- AL18. -/
theorem test_shr_of_vf : (after (start 0x200 0x8F06 [(15, 3)])).getV 15 = 0 := by decide

/-- AL19. -/
theorem test_shl : (after (start 0x200 0x822E [(2, 0x81)])).v = (start 0x200 0 [(2, 2), (15, 1)]).v := by decide

/-- AL22 and AL23. -/
theorem test_shl_of_vf : (after (start 0x200 0x8F0E [(15, 0x80)])).getV 15 = 2 ∧ (after (start 0x200 0x8F0E [(15, 0x7F)])).getV 15 = 0 := by decide

/-- AL25: under mask 0 the byte drawn does not matter. -/
theorem test_rnd_mask_zero (s : State) : (stateOf (execRnd 3 0 s)).getV 3 = 0 := by
  simp [stateOf, execRnd, State.setV, State.getV, State.countDraw]

/-! ### Index register and memory -/

/-- MX1. -/
theorem test_ldI : (after (start 0x200 0xA300 [])).i = 0x300 := by decide

/-- MX3 and MX4. -/
theorem test_addI : let t := after (start 0x200 0xF01E [(0, 1), (15, 9)] |> withI 0xFFF)
    t.i = 0x1000 ∧ t.getV 15 = 9 ∧ (after (start 0x200 0xF01E [(0, 2)] |> withI 0xFFFF)).i = 1 := by decide

/-- MX8 with x = 1: the store wraps into the font. -/
theorem test_storeRegs : let t := after (start 0x200 0xF155 [(0, 0xAA), (1, 0xBB)] |> withI 0xFFF)
    t.mem.read 0xFFF = 0xAA ∧ t.mem.read 0 = 0xBB ∧ t.mem.read 1 = 0x90 ∧ t.i = 0xFFF := by decide

/-- MX9. -/
theorem test_storeRegs_faults : after (start 0x200 0xF155 [(0, 0xAA), (1, 0xBB)] |> withI 0xFFF |> memFault) =
    fatal (.addressOutOfRange 0x1000) (start 0x200 0xF155 [(0, 0xAA), (1, 0xBB)] |> withI 0xFFF |> memFault) := rfl

/-- MX11. -/
theorem test_loadRegs : (after (start 0x200 0xF465 [])).v = (start 0x200 0 [(0, 0xF0), (1, 0x90), (2, 0x90), (3, 0x90), (4, 0xF0)]).v := by decide

/-- MX12. -/
theorem test_loadRegs_all : (after (start 0x200 0xFF65 [] |> withI 0x500 |> withByte 0x50F 0x77)).getV 15 = 0x77 := by decide

/-! ### Timers -/

/-- TM1. -/
theorem test_ldVxDt : let t := after (start 0x200 0xF107 [] |> withTimers 2 0)
    t.getV 1 = 2 ∧ t.dt = 1 := by decide

/-- TM2 and TM3. -/
theorem test_ldDtVx : (after (start 0x200 0xF015 [(0, 3)])).dt = 2 ∧ (after (start 0x200 0xF015 [] |> withTimers 9 0)).dt = 0 := by decide

/-- TM5. -/
theorem test_ldStVx : let t := after (start 0x200 0xF218 [(2, 5)])
    t.st = 4 ∧ t.soundQuery = true ∧ t.out.tone = true := by decide

/-- TM6. -/
theorem test_ldStVx_one : let t := after (start 0x200 0xF218 [(2, 1)])
    t.st = 0 ∧ t.soundQuery = false ∧ t.out.tone = true := by decide

/-! ### Extended profile -/

/-- EX2. -/
theorem test_skp : (after (start 0x300 0xE59E [(5, 0x1A)] |> withKey 10 |> ext)).pc = 0x304 ∧ (after (start 0x300 0xE59E [(5, 0x1A)] |> ext)).pc = 0x302 := by decide

/-- EX3. -/
theorem test_sknp : (after (start 0x300 0xE5A1 [(5, 0x0A)] |> ext)).pc = 0x304 ∧ (after (start 0x300 0xE5A1 [(5, 0x0A)] |> withKey 10 |> ext)).pc = 0x302 := by decide

/-- EX4. -/
theorem test_waitKey_waits : let t := after (start 0x210 0xF30A [] |> withTimers 2 0 |> ext)
    t.pc = 0x210 ∧ t.dt = 1 := by decide

/-- EX5. -/
theorem test_waitKey_takes_least : let t := after (start 0x210 0xF30A [] |> withKey 7 |> withKey 9 |> ext)
    t.getV 3 = 7 ∧ t.pc = 0x212 := by decide

/-- EX6 and EX8. -/
theorem test_storeBcd : let t := after (start 0x200 0xF633 [(6, 254)] |> withI 0x400 |> ext)
    t.mem.read 0x400 = 2 ∧ t.mem.read 0x401 = 5 ∧ t.mem.read 0x402 = 4 ∧ t.i = 0x400 := by decide

/-- EX9. -/
theorem test_storeBcd_faults : after (start 0x200 0xF633 [(6, 1)] |> withI 0xFFE |> memFault |> ext) =
    fatal (.addressOutOfRange 0x1000) (start 0x200 0xF633 [(6, 1)] |> withI 0xFFE |> memFault |> ext) := rfl

/-- EX10. -/
theorem test_ext_under_base : (after (start 0x200 0xF633 [(6, 254)])).out.diag = .unknownOpcode 0xF633 0x200 := by decide

/-! ### The host -/

/-- W7 and W8. -/
theorem test_load : (State.reset.load [0x60, 0x05]).1 = .ok ∧ (after (State.reset.load [0x60, 0x05]).2).getV 0 = 5 ∧
    (State.reset.load [0xAB, 0xCD]).2.mem = [(0x200, 0xAB), (0x201, 0xCD)] := by decide

/-- LD2. -/
theorem test_load_too_large : State.reset.load (List.replicate 3585 0x60) = (.programTooLarge 3585, State.reset) := by
  unfold State.load
  rw [if_neg (by decide), List.length_replicate, if_pos (by decide)]

/-- LD4 to LD6. -/
theorem test_load_refused : (State.reset.load []).1 = .ok ∧ ((State.reset.load []).2.load [0x60]).1 = .loadRefused ∧
    ((after State.reset).load [0x60]).1 = .loadRefused := by decide

/-- R33 and R231: under the default font no cell is listed; glyph 1 begins with 0x20. -/
theorem test_reset_memory : Memory.ofFont Config.font = [] ∧ State.reset.mem.read 5 = 0x20 ∧ State.reset.mem.read 80 = 0 := by decide

/-- The word placed is the one the first step runs. -/
theorem test_withFetchWord : (after (State.reset.withFetchWord 16 0x6A55)).getV 10 = 0x55 ∧
    (after (State.reset.withFetchWord 16 0xF30A)).out.diag = .none := by decide

/-- The bytes of program P1, labels and all. -/
theorem test_assemble_P1 : assemble
    [⟨none, .instr (.ldByte 0 0)⟩, ⟨none, .instr (.ldByte 1 5)⟩, ⟨some 1, .instr (.addByte 0 1)⟩, ⟨none, .instr (.seReg 0 1)⟩,
     ⟨none, .toLabel .jp 1⟩, ⟨some 2, .toLabel .jp 2⟩] =
    some [0x60, 0x00, 0x61, 0x05, 0x70, 0x01, 0x50, 0x10, 0x12, 0x04, 0x12, 0x0A] := by decide

/-! ## Witnesses: for each statement with hypotheses, a state and operands that meet them all, clause by clause where the clauses have
hypotheses of their own. A statement is named by its Lean name. -/

theorem witness_DecodeOfEncode : (Instr.drw 15 15 15).wellFormed .base = true ∧ (Instr.skp 15).wellFormed .ext = true := by decide

theorem witness_EncodeOfDecode : decode .base 0xFF65 = .instr (.loadRegs 15) := by decide

theorem witness_DecodeAgreesWithOpcodeTable :
    decode .base 0xFF65 = .instr (.loadRegs 15) ∧ decode .base 0xFF66 = .unknownOpcode 0xFF66 := by decide

theorem witness_UnknownWordsOfBaseProfile :
    decode .base 0x00DF = .unknownOpcode 0x00DF ∧ decode .base 0x5FFF = .unknownOpcode 0x5FFF ∧
    decode .base 0x8FFF = .unknownOpcode 0x8FFF ∧ decode .base 0x9001 = .unknownOpcode 0x9001 ∧
    decode .base 0xEFFF = .unknownOpcode 0xEFFF ∧ decode .base 0xFFFF = .unknownOpcode 0xFFFF := by decide

/-- The execute phase of an instruction that raises nothing. -/
theorem witness_StepRunsDecodedInstruction :
    ∃ (s t : State) (i : Instr), s.halt = none ∧ s.Fetchable ∧ s.decoded = .instr i ∧
      exec i { s with pc := s.pc + 2, loaded := true, out := { status := .ok, diag := .none, tone := false } } = .next t ∧
      t.halt = none :=
  ⟨start 0x200 0x6001 [], _, .ldByte 0 1, rfl, .inl rfl, rfl, rfl, rfl⟩

/-- The execute phase of an instruction that raises an error. -/
theorem witness_StepRunsDecodedInstruction_error :
    ∃ (s t : State) (i : Instr), s.halt = none ∧ s.Fetchable ∧ s.decoded = .instr i ∧
      exec i { s with pc := s.pc + 2, loaded := true, out := { status := .ok, diag := .none, tone := false } } = .next t ∧
      t.halt ≠ none :=
  ⟨start 0x200 0x00EE [], _, .ret, rfl, .inl rfl, rfl, rfl, by decide⟩

theorem witness_UnknownOpcodeOnlyAdvancesAndTicks :
    ∃ (s : State) (w : Word), s.halt = none ∧ s.Fetchable ∧ s.decoded = .unknownOpcode w :=
  ⟨start 0x200 0x8125 [], 0x8125, rfl, .inl rfl, rfl⟩

theorem witness_HaltedStepChangesNothing : ∃ (s : State) (e : Fatal), s.halt = some e :=
  ⟨fatal (.stackOverflow 0x200) (start 0x200 0x6001 []), _, rfl⟩

/-- The last PC whose word ends in memory is 0xFFE; 0xFFF faults at 0x1000, and 0xFFFF at itself. -/
theorem witness_FetchPastMemoryFaults :
    (∃ s : State, s.halt = none ∧ s.params.memOob = .fault ∧ s.pc.toNat = 0xFFF ∧ 4096 ≤ s.pc.toNat + 1) ∧
    (∃ s : State, s.halt = none ∧ s.params.memOob = .fault ∧ s.pc.toNat = 0xFFFF ∧ 4096 ≤ s.pc.toNat + 1) :=
  ⟨⟨start 0xFFF 0 [] |> memFault, rfl, rfl, rfl, by decide⟩, ⟨start 0xFFFF 0 [] |> memFault, rfl, rfl, rfl, by decide⟩⟩

theorem witness_FatalStepLeavesStateAsItWas :
    ∃ (s t : State) (e : Fatal), s.halt = none ∧ step s = .next t ∧ t.halt = some e :=
  ⟨start 0x200 0x00EE [], _, .stackUnderflow 0x200, rfl, rfl, rfl⟩

/-- One step for each of the four errors. -/
theorem witness_WhichStepRaisesWhichError :
    (∃ s t : State, s.halt = none ∧ step s = .next t ∧ t.halt = some (.stackOverflow 0x200)) ∧
    (∃ s t : State, s.halt = none ∧ step s = .next t ∧ t.halt = some (.stackUnderflow 0x200)) ∧
    (∃ s t : State, s.halt = none ∧ step s = .next t ∧ t.halt = some (.addressOutOfRange 0x1000)) ∧
    (∃ s t : State, s.halt = none ∧ step s = .next t ∧ t.halt = some (.drawOutOfBounds 64 0)) :=
  ⟨⟨start 0x200 0x2400 [] |> withStack 16 0, _, rfl, rfl, rfl⟩, ⟨start 0x200 0x00EE [], _, rfl, rfl, rfl⟩,
   ⟨start 0x200 0xF155 [] |> withI 0xFFF |> memFault, _, rfl, rfl, rfl⟩,
   ⟨start 0x200 0xD011 [(0, 57)] |> withI 0x300 |> withByte 0x300 0x01 |> drawFault, _, rfl, rfl, rfl⟩⟩

theorem witness_TimerTickEndsEveryCompletedStep :
    ∃ s t : State, s.halt = none ∧ step s = .next t ∧ t.halt = none :=
  ⟨start 0x200 0xF015 [(0, 3)], _, rfl, rfl, rfl⟩

theorem witness_TimersCountCompletedSteps :
    ∃ s t : State, s.halt = none ∧ step s = .next t ∧ t.halt = none ∧
      (∀ x, s.decoded ≠ .instr (.ldDtVx x)) ∧ (∀ x, s.decoded ≠ .instr (.ldStVx x)) :=
  ⟨start 0x200 0x6001 [] |> withTimers 1 255, _, rfl, rfl, rfl, by decide, by decide⟩

theorem witness_IdleLoopChangesOnlyTimers : ∃ s : State, s.IdleLoop :=
  ⟨start 0x20A 0x120A [] |> withTimers 2 1, rfl, .inl rfl, 0x20A, rfl, rfl⟩

theorem witness_StepKeepsInvariant : ∃ s t : State, s.Inv ∧ step s = .next t :=
  ⟨start 0x200 0xF155 [(0, 0xAA), (1, 0xBB)] |> withI 0xFFF, _, ⟨by decide, rfl⟩, rfl⟩

theorem witness_ReachableStatesHaveInvariant : ∃ s : State, s.Reachable :=
  ⟨_, Config.params, [.load [0x60, 0x05], .writeKeypad [(7, true)], .step, .reset], rfl⟩

/-- A jump to the highest good target, from the lowest PC, with a good address on the stack. -/
theorem witness_PcStaysEvenAndInProgram :
    ∃ s t : State, s.halt = none ∧ s.PcInv ∧ s.StaysInProgram s.decoded ∧ step s = .next t :=
  ⟨start 0x200 0x1FFE [] |> withStack 1 0xFFE, _, rfl,
   ⟨⟨by decide, by decide, by decide⟩, by simp only [GoodTarget]; decide⟩, ⟨by decide, by decide, by decide⟩, rfl⟩

theorem witness_CanonicalMemoriesReadAlikeAreEqual :
    ∃ m m' : Memory, m.wf = true ∧ m'.wf = true ∧ (∀ a, m.read a = m'.read a) ∧ m ≠ [] :=
  ⟨[(0, 0xAA), (0xFFF, 1)], (Memory.write [(0xFFF, 1)] 0 0xAA), by decide, by decide, fun _ => rfl, by decide⟩

theorem witness_FramebufferIndexAndStackWriters :
    ∃ (i : Instr) (s t : State), exec i s = .next t ∧ i ≠ .cls ∧ (∀ x y n, i ≠ .drw x y n) ∧ (∀ nnn, i ≠ .ldI nnn) ∧
      (∀ x, i ≠ .addI x) ∧ (∀ nnn, i ≠ .call nnn) ∧ i ≠ .ret :=
  ⟨.ldByte 0 1, State.reset, _, rfl, by simp, by simp, by simp, by simp, by simp, by simp⟩

theorem witness_OnlyStoresChangeMemory :
    ∃ (i : Instr) (s t : State), exec i s = .next t ∧ (∀ x, i ≠ .storeRegs x) ∧ (∀ x, i ≠ .storeBcd x) :=
  ⟨.loadRegs 15, State.reset, _, rfl, by simp, by simp⟩

theorem witness_OnlyNamedRegistersChange :
    ∃ (i : Instr) (s t : State) (r : Reg), exec i s = .next t ∧ ¬ i.writesReg r :=
  ⟨.addReg 0 1, State.reset, _, 14, rfl, by simp [Instr.writesReg]⟩

theorem witness_TimersKeypadAndParametersWriters :
    ∃ (i : Instr) (s t : State), exec i s = .next t ∧ (∀ x, i ≠ .ldDtVx x) ∧ (∀ x, i ≠ .ldStVx x) ∧ (∀ x nn, i ≠ .rnd x nn) :=
  ⟨.ldVxDt 0, State.reset, _, rfl, by simp, by simp, by simp⟩

theorem witness_OtherInstructionsLeavePcAdvanced :
    ∃ (i : Instr) (s t : State), s.halt = none ∧ exec i s = .next t ∧ t.halt = none ∧ ¬ i.writesPc :=
  ⟨.loadRegs 15, State.reset, _, rfl, rfl, rfl, by simp [Instr.writesPc]⟩

theorem witness_BaseProfileNeverReadsKeypad :
    ∃ (s t : State), s.params.profile = .base ∧ step s = .next t :=
  ⟨start 0x200 0xE59E [], _, rfl, rfl⟩

theorem witness_RandomByteAffectsOnlyRndAndFontOnlyReset :
    ∃ s t : State, step s = .next t ∧ (s.halt = none → s.Fetchable → ∀ x nn, s.decoded ≠ .instr (.rnd x nn)) :=
  ⟨start 0x200 0x6001 [], _, rfl, fun _ _ => by decide⟩

/-- Rows that wrap through the top of memory, the last of them at the highest row. -/
theorem witness_DrawFlipsExactlyTheSpriteBits :
    ∃ (x y : Reg) (n : Nibble) (s : State), (∀ r < n.toNat, s.Reaches (s.i.toNat + r)) ∧
      (s.params.drawOob = .clip ∨ ∀ px py, s.SpriteAt x y n px py → OnGrid px py) :=
  ⟨0, 1, 2, start 0x200 0xD012 [(1, 30)] |> withI 0xFFF, fun _ _ => .inl rfl, .inl rfl⟩

/-- The same under both fault settings, with no bit off the grid. -/
theorem witness_DrawFlipsExactlyTheSpriteBits_fault :
    ∃ (x y : Reg) (n : Nibble) (s : State), s.params.memOob = .fault ∧ s.params.drawOob = .fault ∧
      (∀ r < n.toNat, s.Reaches (s.i.toNat + r)) ∧
      (s.params.drawOob = .clip ∨ ∀ px py, s.SpriteAt x y n px py → OnGrid px py) :=
  ⟨0, 1, 1, start 0x200 0xD011 [(0, 56), (1, 31)] |> withI 0xFFF |> memFault |> drawFault, rfl, rfl,
   by intro r h; right; change 0xFFF + r < 4096; change r < 1 at h; omega,
   .inr (by
     rintro px py ⟨_, h2, _, h4, _⟩
     change px < 56 + 8 at h2; change py < 31 + 1 at h4
     exact ⟨h2, h4⟩)⟩

/-- The clipped clause, by vector DS5: two of the four bits are drawn, and the one at column 68 is off the grid. -/
theorem witness_DrawFlipsExactlyTheSpriteBits_clipped :
    ∃ (x y : Reg) (n : Nibble) (s t : State), (∀ r < n.toNat, s.Reaches (s.i.toNat + r)) ∧ s.params.drawOob = .clip ∧
      (∃ px py, ¬ OnGrid px py ∧ s.SpriteAt x y n px py) ∧ (∃ px py, OnGrid px py ∧ s.SpriteAt x y n px py) ∧
      step s = .next t ∧ t.out.diag = .drawClipped 0xD011 0x200 :=
  ⟨0, 1, 1, start 0x200 0xD011 [(0, 0x3E)] |> withI 0x300 |> withByte 0x300 0xC3, _, fun _ _ => .inl rfl, rfl,
   ⟨68, 0, by decide, by decide, by decide, by decide, by decide, by decide⟩,
   ⟨62, 0, by decide, by decide, by decide, by decide, by decide, by decide⟩, rfl, rfl⟩

/-- Clause 1: the second row is the first past memory. -/
theorem witness_DrawRaisesFirstError_row :
    ∃ (x y : Reg) (n : Nibble) (s : State) (r : Nat), r < n.toNat ∧ s.params.memOob = .fault ∧ 4096 ≤ s.i.toNat + r ∧
      (∀ q < r, s.i.toNat + q < 4096) ∧
      (s.params.drawOob = .clip ∨ ∀ px py, s.SpriteAt x y n px py → py < s.originY y + r → OnGrid px py) :=
  ⟨0, 1, 2, start 0x200 0xD012 [] |> withI 0xFFF |> memFault, 1, by decide, rfl, by decide,
   by intro q h; change 0xFFF + q < 4096; omega, .inl rfl⟩

/-- Clause 2: the one bit of the sprite is at column 64, the first off the grid. -/
theorem witness_DrawRaisesFirstError_bit :
    ∃ (x y : Reg) (n : Nibble) (s : State) (px py : Nat), s.params.drawOob = .fault ∧ s.SpriteAt x y n px py ∧ ¬ OnGrid px py ∧
      (∀ r ≤ py - s.originY y, s.Reaches (s.i.toNat + r)) ∧
      (∀ qx qy, s.SpriteAt x y n qx qy → (qy < py ∨ (qy = py ∧ qx < px)) → OnGrid qx qy) :=
  ⟨0, 1, 1, start 0x200 0xD011 [(0, 57)] |> withI 0x300 |> withByte 0x300 0x01 |> drawFault, 64, 0, rfl,
   ⟨by decide, by decide, by decide, by decide, by decide⟩, by decide, fun _ _ => .inl rfl,
   by
     rintro qx qy ⟨_, _, _, h4, _⟩ h
     change qy < 0 + 1 at h4
     exact ⟨by omega, by omega⟩⟩

theorem witness_DoubleDrawRestoresFramebuffer :
    ∃ (x y : Reg) (n : Nibble) (s t : State), (∀ r < n.toNat, s.Reaches (s.i.toNat + r)) ∧
      (s.params.drawOob = .clip ∨ ∀ px py, s.SpriteAt x y n px py → OnGrid px py) ∧
      exec (.drw x y n) s = .next t ∧ t.originX x = s.originX x ∧ t.originY y = s.originY y :=
  ⟨0, 1, 1, start 0x200 0xD011 [] |> withI 0x300 |> withByte 0x300 0xC3, _, fun _ _ => .inl rfl, .inl rfl, rfl, rfl, rfl⟩

/-- The clauses on the second VF: the first draw meets only ones, so that VF is 0; it meets only zeros and a bit is drawn, so that VF
is 1; and no bit is drawn. -/
theorem witness_DoubleDrawRestoresFramebuffer_vf :
    (∃ (x y : Reg) (n : Nibble) (s t : State), exec (.drw x y n) s = .next t ∧ t.originX x = s.originX x ∧ t.originY y = s.originY y ∧
      s.SpriteAt x y n 0 0 ∧ ¬ ∃ px py, OnGrid px py ∧ s.SpriteAt x y n px py ∧ s.cellAt px py = false) ∧
    (∃ (x y : Reg) (n : Nibble) (s t : State), exec (.drw x y n) s = .next t ∧ t.originX x = s.originX x ∧ t.originY y = s.originY y ∧
      (∃ px py, OnGrid px py ∧ s.SpriteAt x y n px py) ∧ t.getV 15 = 0) ∧
    (∃ (x y : Reg) (n : Nibble) (s t : State), exec (.drw x y n) s = .next t ∧ t.originX x = s.originX x ∧ t.originY y = s.originY y ∧
      ¬ ∃ px py, OnGrid px py ∧ s.SpriteAt x y n px py) :=
  ⟨⟨0, 1, 1, start 0x200 0xD011 [] |> withI 0x300 |> withByte 0x300 0x80 |> withCell 0, _, rfl, rfl, rfl,
     ⟨by decide, by decide, by decide, by decide, by decide⟩, by
       rintro ⟨px, py, _, ⟨_, h2, _, h4, hb⟩, hc⟩
       change px < 0 + 8 at h2; change py < 0 + 1 at h4
       obtain rfl : py = 0 := by omega
       interval_cases px <;> revert hb hc <;> decide⟩,
   ⟨0, 1, 1, start 0x200 0xD011 [] |> withI 0x300 |> withByte 0x300 0xC3, _, rfl, rfl, rfl,
     ⟨0, 0, by decide, by decide, by decide, by decide, by decide, by decide⟩, rfl⟩,
   ⟨0, 1, 0, start 0x200 0xD010 [], _, rfl, rfl, rfl, by
     rintro ⟨px, py, _, _, _, h3, h4, _⟩
     change 0 ≤ py at h3; change py < 0 + 0 at h4
     omega⟩⟩

/-- The case in which R114 and R112 differ (log entry 27), worked by hand from R112: a one-cell sprite over a lit cell. The first draw meets
a 1 and clears it, VF = 1; the second meets a 0 and lights it, VF = 0, and the framebuffer is restored. -/
theorem witness_DoubleDrawRestoresFramebuffer_clash :
    ∃ s t u : State, exec (.drw 0 1 1) s = .next t ∧ exec (.drw 0 1 1) t = .next u ∧
      s.fb[0] = true ∧ t.fb[0] = false ∧ t.getV 15 = 1 ∧ u.fb[0] = true ∧ u.getV 15 = 0 :=
  ⟨start 0x200 0xD011 [] |> withI 0x300 |> withByte 0x300 0x80 |> withCell 0, _, _, rfl, rfl, rfl, rfl, rfl, rfl, rfl⟩

theorem witness_RetPopsOrUnderflows :
    (∃ s : State, s.sp.val = 1 ∧ 0 < s.sp.val) ∧ (∃ s : State, s.sp.val = 16 ∧ 0 < s.sp.val) ∧ (∃ s : State, s.sp.val = 0) :=
  ⟨⟨withStack 1 0x208 State.reset, rfl, by decide⟩, ⟨withStack 16 0x208 State.reset, rfl, by decide⟩, ⟨State.reset, rfl⟩⟩

theorem witness_CallPushesOrOverflows :
    (∃ s : State, s.sp.val = 0 ∧ s.sp.val < 16) ∧ (∃ s : State, s.sp.val = 15 ∧ s.sp.val < 16) ∧ (∃ s : State, s.sp.val = 16) :=
  ⟨⟨State.reset, rfl, by decide⟩, ⟨withStack 15 0 State.reset, rfl, by decide⟩, ⟨withStack 16 0 State.reset, rfl⟩⟩

theorem witness_CallThenRetResumesAfterCall :
    ∃ (nnn : Addr12) (s t u : State), s.sp.val < 16 ∧ exec (.call nnn) s = .next t ∧ u.sp = t.sp ∧ u.stack = t.stack :=
  ⟨0x500, withStack 15 0 State.reset, _, _, by decide, rfl, rfl, rfl⟩

theorem witness_SkipsOnByte :
    (∃ (x : Reg) (nn : Byte) (s : State), s.getV x = nn) ∧ (∃ (x : Reg) (nn : Byte) (s : State), s.getV x ≠ nn) :=
  ⟨⟨15, 1, start 0x200 0 [(15, 1)], rfl⟩, ⟨15, 0, start 0x200 0 [(15, 1)], by decide⟩⟩

theorem witness_SkipsOnRegister :
    (∃ (x y : Reg) (s : State), x ≠ y ∧ s.getV x = s.getV y) ∧ (∃ (x y : Reg) (s : State), s.getV x ≠ s.getV y) :=
  ⟨⟨0, 15, start 0x200 0 [(0, 5), (15, 5)], by decide, rfl⟩, ⟨0, 15, start 0x200 0 [(0, 5)], by decide⟩⟩

/-- The clauses of `AddWithCarry` and `ShiftsByOneBit`, by destination: a register other than VF, and VF. -/
theorem witness_AddWithCarry : ∃ x r : Reg, x ≠ 15 ∧ r ≠ x ∧ r ≠ 15 := ⟨14, 0, by decide, by decide, by decide⟩
theorem witness_ShiftsByOneBit : (∃ x r : Reg, x ≠ 15 ∧ r ≠ x ∧ r ≠ 15) ∧ (∃ x : Reg, x = 15) :=
  ⟨⟨14, 0, by decide, by decide, by decide⟩, ⟨15, rfl⟩⟩

/-- All sixteen registers stored across the top of memory, and, under the fault setting, up to the last byte. -/
theorem witness_StoreRegisters :
    (∃ (x : Reg) (s : State), x = 15 ∧ s.mem.wf = true ∧ s.Reaches (s.i.toNat + x.val)) ∧
    (∃ (x : Reg) (s : State), x = 15 ∧ s.params.memOob = .fault ∧ s.mem.wf = true ∧ s.Reaches (s.i.toNat + x.val)) :=
  ⟨⟨15, withI 0xFFF State.reset, rfl, rfl, .inl rfl⟩, ⟨15, withI 0xFF0 State.reset |> memFault, rfl, rfl, rfl, .inr (by decide)⟩⟩

theorem witness_LoadRegisters :
    (∃ (x : Reg) (s : State), x = 15 ∧ s.Reaches (s.i.toNat + x.val)) ∧
    (∃ (x : Reg) (s : State), x = 15 ∧ s.params.memOob = .fault ∧ s.Reaches (s.i.toNat + x.val)) :=
  ⟨⟨15, withI 0xFFF State.reset, rfl, .inl rfl⟩, ⟨15, withI 0xFF0 State.reset |> memFault, rfl, rfl, .inr (by decide)⟩⟩

/-- The first address past memory is the last one of the transfer, or its first. -/
theorem witness_TransferPastMemoryFaults :
    (∃ (x : Reg) (s : State), s.params.memOob = .fault ∧ 4096 ≤ s.i.toNat + x.val ∧ s.i.toNat = 0xFFF) ∧
    (∃ (x : Reg) (s : State), s.params.memOob = .fault ∧ 4096 ≤ s.i.toNat + x.val ∧ s.i.toNat = 0xFFFF) ∧
    (∃ s : State, s.params.memOob = .fault ∧ 4096 ≤ s.i.toNat + 2 ∧ s.i.toNat = 0xFFE) :=
  ⟨⟨1, withI 0xFFF State.reset |> memFault, rfl, by decide, rfl⟩, ⟨0, withI 0xFFFF State.reset |> memFault, rfl, by decide, rfl⟩,
   ⟨withI 0xFFE State.reset |> memFault, rfl, by decide, rfl⟩⟩

/-- Both bytes of the next word are stored, by LD [I], Vx across the top of memory. -/
theorem witness_StoredBytesAreFetchedNext :
    ∃ (s t : State) (i : Instr) (b c : Byte), s.mem.wf = true ∧ s.halt = none ∧ s.Fetchable ∧ s.decoded = .instr i ∧
      i.storedByte s 0 = some b ∧ i.storedByte s 1 = some c ∧ step s = .next t ∧ t.halt = none ∧
      { t with pc := t.pc }.Fetchable ∧ (s.i.toNat + 0) % 4096 = t.pc.toNat % 4096 ∧
      (s.i.toNat + 1) % 4096 = (t.pc.toNat + 1) % 4096 :=
  ⟨start 0xFFD 0xF155 [(0, 0x61), (1, 0x42)] |> withI 0xFFF, _, .storeRegs 1, 0x61, 0x42, by decide, rfl, .inl rfl, rfl, rfl, rfl,
   rfl, rfl, .inl rfl, by decide, by decide⟩

/-- The third byte of LD B, Vx is fetched from another PC, under MEM_OOB = fault. -/
theorem witness_StoredBytesAreFetchedNext_bcd :
    ∃ (s t : State) (i : Instr) (b : Byte) (a : Word), s.mem.wf = true ∧ s.halt = none ∧ s.Fetchable ∧ s.decoded = .instr i ∧
      i.storedByte s 2 = some b ∧ step s = .next t ∧ t.halt = none ∧ { t with pc := a }.Fetchable ∧
      (s.i.toNat + 2) % 4096 = (a.toNat + 1) % 4096 :=
  ⟨start 0x200 0xF633 [(6, 254)] |> withI 0xFFD |> memFault |> ext, _, .storeBcd 6, 4, 0xFFE, by decide, rfl, .inr (by decide), rfl,
   rfl, rfl, rfl, .inr (by decide), by decide⟩

theorem witness_TimerWriteIsTickedInTheSameStep :
    (∃ (s : State) (x : Reg), s.halt = none ∧ s.Fetchable ∧ s.decoded = .instr (.ldDtVx x)) ∧
    (∃ (s : State) (x : Reg), s.halt = none ∧ s.Fetchable ∧ s.decoded = .instr (.ldStVx x)) ∧
    (∃ (s : State) (x : Reg), s.halt = none ∧ s.Fetchable ∧ s.decoded = .instr (.ldVxDt x)) :=
  ⟨⟨start 0x200 0xF015 [(0, 1)], 0, rfl, .inl rfl, rfl⟩, ⟨start 0x200 0xF218 [(2, 1)], 2, rfl, .inl rfl, rfl⟩,
   ⟨start 0x200 0xF107 [] |> withTimers 255 0, 1, rfl, .inl rfl, rfl⟩⟩

/-- At ST = 1 the two signals differ, and at ST = 0 they agree; by vector TM6 they differ when LD ST, Vx writes 1. -/
theorem witness_ToneAndSoundQueryDifferOnlyAtOne :
    (∃ s t : State, s.halt = none ∧ step s = .next t ∧ t.halt = none ∧ (∀ x, s.decoded ≠ .instr (.ldStVx x)) ∧ s.st = 1) ∧
    (∃ s t : State, s.halt = none ∧ step s = .next t ∧ t.halt = none ∧ (∀ x, s.decoded ≠ .instr (.ldStVx x)) ∧ s.st = 0) ∧
    (∃ (s t : State) (x : Reg), s.halt = none ∧ step s = .next t ∧ t.halt = none ∧ s.decoded = .instr (.ldStVx x) ∧ s.getV x = 1) :=
  ⟨⟨start 0x200 0x6001 [] |> withTimers 0 1, _, rfl, rfl, rfl, by decide, rfl⟩, ⟨start 0x200 0x6001 [], _, rfl, rfl, rfl, by decide, rfl⟩,
   ⟨start 0x200 0xF218 [(2, 1)], _, 2, rfl, rfl, rfl, rfl, rfl⟩⟩

/-- The clauses in turn: the key that is named is pressed; it is not; a key is the least pressed; none is. -/
theorem witness_KeypadInstructions :
    (∃ (x k : Reg) (s : State), k.val = (s.getV x).toNat % 16 ∧ s.key[k] = true) ∧
    (∃ (x k : Reg) (s : State), k.val = (s.getV x).toNat % 16 ∧ s.key[k] = false) ∧
    (∃ (k : Reg) (s : State), s.key[k] = true ∧ (∀ q : Reg, q < k → s.key[q] = false)) ∧
    (∃ s : State, ∀ k : Reg, s.key[k] = false) :=
  ⟨⟨5, 15, start 0x300 0 [(5, 0xFF)] |> withKey 15, by decide, by decide⟩, ⟨5, 10, start 0x300 0 [(5, 0x1A)], by decide, by decide⟩,
   ⟨7, State.reset |> withKey 7 |> withKey 9, by decide, by decide⟩, ⟨State.reset, by decide⟩⟩

theorem witness_StoreDecimalDigits :
    (∃ s : State, s.mem.wf = true ∧ s.Reaches (s.i.toNat + 2)) ∧
    (∃ s : State, s.params.memOob = .fault ∧ s.mem.wf = true ∧ s.Reaches (s.i.toNat + 2)) :=
  ⟨⟨withI 0xFFF State.reset, rfl, .inl rfl⟩, ⟨withI 0xFFD State.reset |> memFault, rfl, rfl, .inr (by decide)⟩⟩

theorem witness_BaseProfileGatesExtensions :
    ∃ (s : State) (i : Instr), i.profile = .ext ∧ s.params.profile = .base ∧ s.halt = none ∧ s.Fetchable ∧ s.wordAtPc = encode i :=
  ⟨start 0x200 0xF633 [], .storeBcd 6, rfl, rfl, rfl, .inl rfl, rfl⟩

/-- The third clause at the largest program, the second one byte past it. -/
theorem witness_LoadCopiesProgram :
    (∃ s : State, s.mem.wf = true ∧ s.loaded = true) ∧
    (∃ (s : State) (bytes : List Byte), s.mem.wf = true ∧ s.loaded = false ∧ bytes.length = 3585 ∧ 4096 - 0x200 < bytes.length) ∧
    (∃ (s : State) (bytes : List Byte), s.mem.wf = true ∧ s.loaded = false ∧ bytes.length = 3584 ∧ bytes.length ≤ 4096 - 0x200) :=
  ⟨⟨{ State.reset with loaded := true }, rfl, rfl⟩,
   ⟨State.reset, List.replicate 3585 0x60, rfl, rfl, List.length_replicate, by rw [List.length_replicate]; decide⟩,
   ⟨State.reset, List.replicate 3584 0x60, rfl, rfl, List.length_replicate, by rw [List.length_replicate]⟩⟩

theorem witness_FirstStepFetchesFirstProgramWord : ∃ rest : List Byte, rest.length = 3582 ∧ rest.length ≤ 3582 :=
  ⟨List.replicate 3582 0x60, List.length_replicate, by rw [List.length_replicate]⟩

/-- The keypad clauses: a key named twice, with its last pair, and a key not named. -/
theorem witness_HostAccesses :
    ∃ (keys before rest : List (Reg × Bool)) (q r : Reg), keys = before ++ (q, false) :: rest ∧ (∀ c, (q, c) ∉ rest) ∧
      (q, true) ∈ before ∧ (∀ b, (r, b) ∉ keys) :=
  ⟨[(0, true), (15, true), (0, false), (7, true)], [(0, true), (15, true)], [(7, true)], 0, 8, rfl, by decide, by decide, by decide⟩

theorem witness_OnlyResetLeavesHalt :
    ∃ (s : State) (e : Fatal) (moves : List HostMove), s.halt = some e ∧ s.loaded = true ∧ HostMove.reset ∉ moves ∧ moves ≠ [] :=
  ⟨fatal (.stackUnderflow 0x200) State.reset, _, [.step, .load [0x60], .writeKeypad [(7, true)], .querySound], rfl, rfl, by decide, by decide⟩

end Sys2Proof.Tests
end

section
/-!
The load transaction: one equation for each of its three answers (R101), what memory reads as inside and outside the bytes written, and
the obligation on it.
-/
namespace Sys2Proof.Machine

/-! ## Reads after a list of bytes is written -/

theorem Memory.read_writeList_inside (us : List Byte) (m : Memory) (a k : Nat) (hwf : m.wf = true) (ha : a + us.length ≤ 4096)
    (hk : k < us.length) : (m.writeList a us).read (a + k) = us[k] := by
  rw [m.read_writeList us a (a + k) hwf ha, dif_pos ⟨by omega, by omega⟩]
  simp

theorem Memory.read_writeList_outside (us : List Byte) (m : Memory) (a b : Nat) (hwf : m.wf = true) (ha : a + us.length ≤ 4096)
    (hb : b < a ∨ a + us.length ≤ b) : (m.writeList a us).read b = m.read b := by
  rw [m.read_writeList us a b hwf ha, dif_neg (by omega)]

/-! ## The answers of a load -/

variable {s : State} {bytes : List Byte}

theorem State.load_of_loaded (h : s.loaded = true) : s.load bytes = (.loadRefused, s) := by
  rw [State.load, if_pos h]

theorem State.load_of_tooLarge (h : s.loaded = false) (hlen : maxProgram < bytes.length) :
    s.load bytes = (.programTooLarge bytes.length, s) := by
  rw [State.load, if_neg (by simp [h]), if_pos hlen]

theorem State.load_of_fits (h : s.loaded = false) (hlen : bytes.length ≤ maxProgram) :
    s.load bytes = (.ok, { s with mem := s.mem.writeList 0x200 bytes, loaded := true }) := by
  rw [State.load, if_neg (by simp [h]), if_neg (by omega)]

end Sys2Proof.Machine

open Sys2Proof.Machine

/-- Settles O56: the two refusals are the load's own equations; where the program fits, it ends at or below 4096, so each read is inside
or outside the bytes written. -/
theorem loadCopiesProgram : Obligations.LoadCopiesProgram := by
  intro s bytes hwf
  refine ⟨State.load_of_loaded, State.load_of_tooLarge, fun hload hlen => ?_⟩
  have hfit : 0x200 + bytes.length ≤ 4096 := by omega
  exact ⟨_, State.load_of_fits hload hlen, fun k hk => s.mem.read_writeList_inside bytes 0x200 k hwf hfit hk,
    fun a ha => s.mem.read_writeList_outside bytes 0x200 a hwf hfit ha, rfl⟩
end

section
/-!
CLS: the one word that decodes to it, and the obligation on its effect (R110).
-/
namespace Sys2Proof

/-! ## The word of CLS -/

theorem decodeFamily0_eq_cls {w : Word} (h : decodeFamily0 w = .instr .cls) : w = 0x00E0 := by
  unfold decodeFamily0 at h
  split at h
  · next hw => exact BitVec.eq_of_toNat_eq hw
  · cases h
  · cases h

theorem decodeFamily8_ne_cls (w : Word) : decodeFamily8 w ≠ .instr .cls := by
  unfold decodeFamily8
  split <;> nofun

theorem decodeFamilyE_ne_cls (p : Profile) (w : Word) : decodeFamilyE p w ≠ .instr .cls := by
  unfold decodeFamilyE
  split <;> nofun

theorem decodeFamilyF_ne_cls (p : Profile) (w : Word) : decodeFamilyF p w ≠ .instr .cls := by
  unfold decodeFamilyF
  split <;> nofun

/-- Only family 0 answers CLS; the other fifteen answer other instructions or an unknown opcode (R75). -/
theorem decode_eq_cls_iff (p : Profile) (w : Word) : decode p w = .instr .cls ↔ w = 0x00E0 := by
  constructor
  · intro h
    unfold decode at h
    split at h
    case h_1 => exact decodeFamily0_eq_cls h
    case h_9 => exact absurd h (decodeFamily8_ne_cls w)
    case h_15 => exact absurd h (decodeFamilyE_ne_cls p w)
    case h_16 => exact absurd h (decodeFamilyF_ne_cls p w)
    case h_6 | h_10 => split at h <;> cases h
    all_goals cases h
  · rintro rfl
    rfl

end Sys2Proof

open Sys2Proof Sys2Proof.Machine

/-- Settles O28: the state CLS leaves is the old one with an all-zero framebuffer put in its place. -/
theorem clearScreen : Obligations.ClearScreen := by
  intro p w s
  exact ⟨decode_eq_cls_iff p w, _, exec_cls s, fun k hk => Vector.getElem_replicate hk, rfl⟩
end

section
/-!
RET and CALL: a word that decodes is the encoding of what it decodes to, which gives the words of both, and the obligations on their
effect and their errors (R120, R122).
-/
namespace Sys2Proof

/-! ## A decoded word is the encoding of its instruction -/

variable {p : Profile} {w : Word} {i : Instr}

theorem packNNN_of_family {f : Nibble} (hf : (family w).toNat = f.toNat) : packNNN f (fieldNNN w) = w := by
  rw [← BitVec.eq_of_toNat_eq hf, packNNN_fields]

theorem packXNN_of_family {f : Nibble} (hf : (family w).toNat = f.toNat) : packXNN f (fieldX w) (fieldNN w) = w := by
  rw [← BitVec.eq_of_toNat_eq hf, packXNN_fields]

theorem packXNN_of_family_of_byte {f : Nibble} {nn : Byte} (hf : (family w).toNat = f.toNat) (hnn : (fieldNN w).toNat = nn.toNat) :
    packXNN f (fieldX w) nn = w := by
  rw [← BitVec.eq_of_toNat_eq hnn, packXNN_of_family hf]

theorem packXYN_of_family_of_nibble {f n : Nibble} (hf : (family w).toNat = f.toNat) (hn : (fieldN w).toNat = n.toNat) :
    packXYN f (fieldX w) (fieldY w) n = w := by
  rw [← BitVec.eq_of_toNat_eq hf, ← BitVec.eq_of_toNat_eq hn, packXYN_fields]

theorem encode_of_decodeFamily0 (h : decodeFamily0 w = .instr i) : encode i = w := by
  unfold decodeFamily0 at h
  split at h
  case h_3 => cases h
  all_goals
    next hw => cases h; exact (BitVec.eq_of_toNat_eq hw).symm

theorem encode_of_decodeFamily8 (hf : (family w).toNat = 8) (h : decodeFamily8 w = .instr i) : encode i = w := by
  unfold decodeFamily8 at h
  split at h
  case h_8 => cases h
  all_goals
    next hn => cases h; exact packXYN_of_family_of_nibble hf hn

theorem encode_of_decodeFamilyE (hf : (family w).toNat = 14) (h : decodeFamilyE p w = .instr i) : encode i = w := by
  unfold decodeFamilyE at h
  split at h
  case h_3 => cases h
  all_goals
    next hnn => cases h; exact packXNN_of_family_of_byte hf hnn

theorem encode_of_decodeFamilyF (hf : (family w).toNat = 15) (h : decodeFamilyF p w = .instr i) : encode i = w := by
  unfold decodeFamilyF at h
  split at h
  case h_9 => cases h
  all_goals
    next hnn => cases h; exact packXNN_of_family_of_byte hf hnn

/-- Family by family (R75 to R77): the word's fields, packed as the format of its row says (R72), are the word. -/
theorem encode_of_decode (h : decode p w = .instr i) : encode i = w := by
  unfold decode at h
  split at h
  case h_1 => exact encode_of_decodeFamily0 h
  case h_9 hf => exact encode_of_decodeFamily8 hf h
  case h_15 hf => exact encode_of_decodeFamilyE hf h
  case h_16 =>
    have hlt := (family w).isLt
    have hf : (family w).toNat = 15 := by grind
    exact encode_of_decodeFamilyF hf h
  case h_6 hf | h_10 hf =>
    split at h
    · next hn => cases h; exact packXYN_of_family_of_nibble hf (congrArg BitVec.toNat hn)
    · cases h
  case h_14 hf => cases h; exact packXYN_of_family_of_nibble hf rfl
  case h_2 hf | h_3 hf | h_11 hf | h_12 hf => cases h; exact packNNN_of_family hf
  case h_4 hf | h_5 hf | h_7 hf | h_8 hf | h_13 hf => cases h; exact packXNN_of_family hf

/-! ## The words of RET and CALL -/

theorem decode_eq_ret_iff (p : Profile) (w : Word) : decode p w = .instr .ret ↔ w = 0x00EE := by
  constructor
  · intro h
    exact (encode_of_decode h).symm
  · rintro rfl
    rfl

theorem decode_eq_call_iff (p : Profile) (w : Word) (nnn : Addr12) :
    decode p w = .instr (.call nnn) ↔ family w = 0x2 ∧ fieldNNN w = nnn := by
  constructor
  · intro h
    obtain rfl : packNNN 0x2 nnn = w := encode_of_decode h
    exact ⟨family_packNNN 0x2 nnn, fieldNNN_packNNN 0x2 nnn⟩
  · rintro ⟨hf, rfl⟩
    simp [decode, hf]

end Sys2Proof

namespace Sys2Proof.Machine

/-! ## The two answers of RET and of CALL -/

@[simp] theorem addressOperand_toNat (nnn : Addr12) : (addressOperand nnn).toNat = nnn.toNat :=
  BitVec.toNat_setWidth_of_le (by omega)

variable {s : State}

theorem exec_ret_of_occupied (h : 0 < s.sp.val) :
    exec .ret s = .next { s with sp := ⟨s.sp.val - 1, by omega⟩, pc := s.stack[s.sp.val - 1] } := by
  obtain ⟨h0, -⟩ | ⟨_, hex⟩ := exec_ret_cases (s := s)
  · omega
  · exact hex

theorem exec_ret_of_empty (h : s.sp.val = 0) : exec .ret s = .next (s.raised (.stackUnderflow s.execAddr)) := by
  obtain ⟨-, hex⟩ | ⟨h0, -⟩ := exec_ret_cases (s := s)
  · exact hex
  · omega

theorem exec_call_of_room (nnn : Addr12) (h : s.sp.val < 16) : exec (.call nnn) s =
    .next { s with stack := s.stack.set s.sp.val s.pc, sp := ⟨s.sp.val + 1, by omega⟩, pc := addressOperand nnn } := by
  obtain ⟨h0, -⟩ | ⟨_, hex⟩ := exec_call_cases (s := s) nnn
  · omega
  · exact hex

theorem exec_call_of_full (nnn : Addr12) (h : s.sp.val = 16) :
    exec (.call nnn) s = .next (s.raised (.stackOverflow s.execAddr)) := by
  obtain ⟨-, hex⟩ | ⟨h0, -⟩ := exec_call_cases (s := s) nnn
  · exact hex
  · omega

end Sys2Proof.Machine

open Sys2Proof Sys2Proof.Machine

/-- Settles O32: the word by the encoder, and the two answers of RET by whether a slot is occupied. -/
theorem retPopsOrUnderflows : Obligations.RetPopsOrUnderflows := by
  intro p w s
  exact ⟨decode_eq_ret_iff p w, fun h => ⟨_, exec_ret_of_occupied h, Nat.sub_add_cancel h, rfl, rfl⟩, exec_ret_of_empty⟩

/-- Settles O33: the word by the encoder, and the two answers of CALL by whether a slot is free; the push writes the slot at SP alone. -/
theorem callPushesOrOverflows : Obligations.CallPushesOrOverflows := by
  intro p w nnn s
  refine ⟨decode_eq_call_iff p w nnn, fun h => ⟨_, exec_call_of_room nnn h, rfl, addressOperand_toNat nnn, ?_, ?_, rfl⟩,
    exec_call_of_full nnn⟩
  · exact Vector.getElem_set_self h
  · intro j hj hne
    exact Vector.getElem_set_ne h hj hne.symm
end

section
/-!
The skips on a byte and on a register: an instruction that decodes from its own encoding has that word alone, which gives the words of the
four; a skip on a comparison of two bytes goes one of two ways (R130); the obligations on both pairs (R131 to R134).
-/
namespace Sys2Proof

/-! ## The words that encode an instruction, by their fields -/

variable {p : Profile} {w : Word} {i : Instr} {f n : Nibble} {x y : Reg} {nn : Byte}

theorem packXNN_eq_iff : packXNN f x nn = w ↔ family w = f ∧ fieldX w = x ∧ fieldNN w = nn := by
  constructor
  · rintro rfl
    simp
  · rintro ⟨rfl, rfl, rfl⟩
    exact packXNN_fields w

theorem packXYN_eq_iff : packXYN f x y n = w ↔ family w = f ∧ fieldN w = n ∧ fieldX w = x ∧ fieldY w = y := by
  constructor
  · rintro rfl
    simp
  · rintro ⟨rfl, rfl, rfl, rfl⟩
    exact packXYN_fields w

theorem decode_eq_iff_encode_eq (h : decode p (encode i) = .instr i) : decode p w = .instr i ↔ encode i = w := by
  constructor
  · exact encode_of_decode
  · rintro rfl
    exact h

/-! ## The words of SE and SNE -/

theorem decode_eq_seByte_iff : decode p w = .instr (.seByte x nn) ↔ family w = 0x3 ∧ fieldX w = x ∧ fieldNN w = nn :=
  (decode_eq_iff_encode_eq (by simp [encode, decode])).trans packXNN_eq_iff

theorem decode_eq_sneByte_iff : decode p w = .instr (.sneByte x nn) ↔ family w = 0x4 ∧ fieldX w = x ∧ fieldNN w = nn :=
  (decode_eq_iff_encode_eq (by simp [encode, decode])).trans packXNN_eq_iff

theorem decode_eq_seReg_iff :
    decode p w = .instr (.seReg x y) ↔ family w = 0x5 ∧ fieldN w = 0x0 ∧ fieldX w = x ∧ fieldY w = y :=
  (decode_eq_iff_encode_eq (by simp [encode, decode])).trans packXYN_eq_iff

theorem decode_eq_sneReg_iff :
    decode p w = .instr (.sneReg x y) ↔ family w = 0x9 ∧ fieldN w = 0x0 ∧ fieldX w = x ∧ fieldY w = y :=
  (decode_eq_iff_encode_eq (by simp [encode, decode])).trans packXYN_eq_iff

end Sys2Proof

namespace Sys2Proof.Machine

/-! ## A skip on a comparison of two bytes (R130) -/

variable {s : State} {a b : Byte}

theorem State.skipIf_beq_of_eq (h : a = b) : s.skipIf (a == b) = { s with pc := s.pc + 2 } :=
  if_pos (beq_iff_eq.mpr h)

theorem State.skipIf_beq_of_ne (h : a ≠ b) : s.skipIf (a == b) = s :=
  if_neg (mt beq_iff_eq.mp h)

theorem State.skipIf_bne_of_eq (h : a = b) : s.skipIf (a != b) = s :=
  if_neg (by simp [h])

theorem State.skipIf_bne_of_ne (h : a ≠ b) : s.skipIf (a != b) = { s with pc := s.pc + 2 } :=
  if_pos (bne_iff_ne.mpr h)

end Sys2Proof.Machine

open Sys2Proof Sys2Proof.Machine

/-- Settles O36: the words by the encoder, and each outcome by whether the register is the byte. -/
theorem skipsOnByte : Obligations.SkipsOnByte := by
  intro p w x nn s
  refine ⟨decode_eq_seByte_iff, decode_eq_sneByte_iff, fun heq => ?_, fun hne => ?_⟩
  · rw [exec_seByte, exec_sneByte, State.skipIf_beq_of_eq heq, State.skipIf_bne_of_eq heq]
    exact ⟨rfl, rfl⟩
  · rw [exec_seByte, exec_sneByte, State.skipIf_beq_of_ne hne, State.skipIf_bne_of_ne hne]
    exact ⟨rfl, rfl⟩

/-- Settles O37: as for a byte, with the second register as the other operand; with `X = Y` the first outcome is the only one. -/
theorem skipsOnRegister : Obligations.SkipsOnRegister := by
  intro p w x y s
  refine ⟨decode_eq_seReg_iff, decode_eq_sneReg_iff, fun heq => ?_, fun hne => ?_⟩
  · rw [exec_seReg, exec_sneReg, State.skipIf_beq_of_eq heq, State.skipIf_bne_of_eq heq]
    exact ⟨rfl, rfl⟩
  · rw [exec_seReg, exec_sneReg, State.skipIf_beq_of_ne hne, State.skipIf_bne_of_ne hne]
    exact ⟨rfl, rfl⟩
end

section
/-!
The loads, the sum with a byte and the bitwise instructions: the words by the encoder; each of the six answers one register write, whose
value and frame are stated once; the obligations on LD and ADD with a byte (R140, R141) and on LD, OR, AND and XOR between registers
(R142 to R145).
-/
namespace Sys2Proof

/-! ## The words of LD and ADD with a byte, and of family 8 -/

variable {p : Profile} {w : Word} {i : Instr} {n : Nibble} {x y : Reg} {nn : Byte}

theorem decode_eq_ldByte_iff : decode p w = .instr (.ldByte x nn) ↔ family w = 0x6 ∧ fieldX w = x ∧ fieldNN w = nn :=
  (decode_eq_iff_encode_eq (by simp [encode, decode])).trans packXNN_eq_iff

theorem decode_eq_addByte_iff : decode p w = .instr (.addByte x nn) ↔ family w = 0x7 ∧ fieldX w = x ∧ fieldNN w = nn :=
  (decode_eq_iff_encode_eq (by simp [encode, decode])).trans packXNN_eq_iff

/-- The words of an instruction of family 8, where `N` selects the row (R75, R76). -/
theorem decode_eq_family8_iff (henc : encode i = packXYN 0x8 x y n) (hdec : decodeFamily8 (packXYN 0x8 x y n) = .instr i) :
    decode p w = .instr i ↔ family w = 0x8 ∧ fieldN w = n ∧ fieldX w = x ∧ fieldY w = y := by
  have hround : decode p (encode i) = .instr i := by simpa [henc, decode] using hdec
  rw [decode_eq_iff_encode_eq hround, henc, packXYN_eq_iff]

/-- LD, OR, AND and XOR are the rows 0 to 3 of family 8 (R142 to R145). -/
theorem decode_eq_copyOrBitwise_iff
    (hrow : (i, n) ∈ ([(.ldReg x y, 0x0), (.orReg x y, 0x1), (.andReg x y, 0x2), (.xorReg x y, 0x3)] : List (Instr × Nibble))) :
    decode p w = .instr i ↔ family w = 0x8 ∧ fieldN w = n ∧ fieldX w = x ∧ fieldY w = y := by
  simp only [List.mem_cons, Prod.mk.injEq, List.not_mem_nil, or_false] at hrow
  obtain ⟨rfl, rfl⟩ | ⟨rfl, rfl⟩ | ⟨rfl, rfl⟩ | ⟨rfl, rfl⟩ := hrow
  all_goals exact decode_eq_family8_iff rfl (by simp [decodeFamily8])

end Sys2Proof

namespace Sys2Proof.Machine

/-! ## The frame of one register write -/

/-- A register write leaves every other register, VF among them, and every other part of the state (R23). -/
theorem State.setV_frame (s : State) (x : Reg) (b : Byte) :
    (∀ r, r ≠ x → (s.setV x b).getV r = s.getV r) ∧ s.setV x b = { s with v := (s.setV x b).v } :=
  ⟨fun r hr => s.getV_setV_ne x r b hr, rfl⟩

end Sys2Proof.Machine

open Sys2Proof Sys2Proof.Machine

/-- Settles O38: the words by the encoder; each instruction is one register write, of the byte or of the 8-bit sum. -/
theorem loadAndAddByte : Obligations.LoadAndAddByte := by
  intro p w x nn s
  have hsum : ((s.setV x (s.getV x + nn)).getV x).toNat = ((s.getV x).toNat + nn.toNat) % 256 := by
    rw [State.getV_setV_same, BitVec.toNat_add]
  exact ⟨decode_eq_ldByte_iff, decode_eq_addByte_iff,
    ⟨_, exec_ldByte s x nn, s.getV_setV_same x nn, s.setV_frame x _⟩,
    ⟨_, exec_addByte s x nn, hsum, s.setV_frame x _⟩⟩

/-- Settles O39: the words by the selector of family 8; each instruction is one register write, whose value is read bit by bit. -/
theorem copyAndBitwise : Obligations.CopyAndBitwise := by
  intro p w x y s
  refine ⟨fun i n hrow => decode_eq_copyOrBitwise_iff hrow,
    ⟨_, exec_ldReg s x y, s.getV_setV_same x _, s.setV_frame x _⟩,
    ⟨_, exec_orReg s x y, fun b => ?_, s.setV_frame x _⟩,
    ⟨_, exec_andReg s x y, fun b => ?_, s.setV_frame x _⟩,
    ⟨_, exec_xorReg s x y, fun b => ?_, s.setV_frame x _⟩⟩
  · rw [State.getV_setV_same, BitVec.getLsbD_or]
  · rw [State.getV_setV_same, BitVec.getLsbD_and]
  · rw [State.getV_setV_same, BitVec.getLsbD_xor]
end

section
/-!
LD I, addr: the words by the encoder, and the obligation on its effect (R160).
-/
namespace Sys2Proof

/-! ## The words that encode an instruction with an address -/

variable {p : Profile} {w : Word} {f : Nibble} {nnn : Addr12}

theorem packNNN_eq_iff : packNNN f nnn = w ↔ family w = f ∧ fieldNNN w = nnn := by
  constructor
  · rintro rfl
    simp
  · rintro ⟨rfl, rfl⟩
    exact packNNN_fields w

theorem decode_eq_ldI_iff : decode p w = .instr (.ldI nnn) ↔ family w = 0xA ∧ fieldNNN w = nnn :=
  (decode_eq_iff_encode_eq (by simp [encode, decode])).trans packNNN_eq_iff

end Sys2Proof

open Sys2Proof Sys2Proof.Machine

/-- Settles O43: the words by the encoder; the instruction is one write of I, by the address widened to 16 bits, which keeps its value. -/
theorem loadIndex : Obligations.LoadIndex := by
  intro p w nnn s
  exact ⟨decode_eq_ldI_iff, _, exec_ldI s nnn, addressOperand_toNat nnn, rfl⟩
end

section
/-!
The end of a completed step: the one state its execute phase leaves, which is then ticked, and the obligation on the tick (R210).
-/
namespace Sys2Proof.Machine

/-! ## The tick as a change of the state -/

/-- The countdown floored at 0, with the floor written as a case (R210). -/
theorem countDown_toNat_ite (b : Byte) : (countDown b).toNat = if 0 < b.toNat then b.toNat - 1 else 0 := by
  rw [countDown_toNat]
  split <;> omega

/-- A tick writes the two timers and the tone, and nothing else. -/
theorem State.tick_frame (s : State) :
    s.tick = { s with dt := s.tick.dt, st := s.tick.st, out := { s.out with tone := decide (0 < s.st.toNat) } } := by
  rw [← timer_nonzero]
  rfl

/-! ## What a completed step ticks -/

/-- A step that ends with no error latched ends with the tick. -/
theorem State.finishStep_of_completed {s : State} (h : s.finishStep.halt = none) : s.finishStep = s.tick := by
  cases hs : s.halt with
  | none => exact State.finishStep_of_running hs
  | some e => simp [State.finishStep_of_halted hs, hs] at h

/-- An unknown opcode advances PC and reports the word at the address it was fetched from (R93, R98). -/
theorem State.beginStep_execUnknown (s : State) (w : Word) :
    s.beginStep.execUnknown w =
      { s with pc := s.pc + 2, loaded := true, out := { status := .ok, diag := .unknownOpcode w s.pc, tone := false } } := by
  have haddr : s.beginStep.execAddr = s.pc := by simp [State.execAddr]
  rw [State.execUnknown, haddr]
  rfl

/-- Every completed step ticks the state its execute phase leaves, be its word an instruction or unknown (R92). -/
theorem step_completed {s t : State} (h0 : s.halt = none) (h : step s = .next t) (ht : t.halt = none) :
    ∃ u, ((∃ i, s.decoded = .instr i ∧ exec i s.beginStep = .next u) ∨
        (s.decoded = .unknownOpcode s.wordAtPc ∧ u = s.beginStep.execUnknown s.wordAtPc)) ∧ t = u.tick := by
  obtain ⟨e, -, -, rfl⟩ | ⟨-, i, u, hi, hu, rfl⟩ | ⟨-, hw, rfl⟩ := step_cases h0 h
  · simp at ht
  · exact ⟨u, .inl ⟨i, hi, hu⟩, State.finishStep_of_completed ht⟩
  · exact ⟨_, .inr ⟨hw, rfl⟩, rfl⟩

end Sys2Proof.Machine

open Sys2Proof Sys2Proof.Machine

/-- Settles O13: a completed step ends in the tick of what its execute phase left, and the tick counts both timers down and sets the
tone from the sound timer it met. -/
theorem timerTickEndsEveryCompletedStep : Obligations.TimerTickEndsEveryCompletedStep := by
  intro s t h0 hstep ht
  obtain ⟨u, hu, rfl⟩ := step_completed h0 hstep ht
  rw [State.beginStep_execUnknown] at hu
  exact ⟨u, hu, countDown_toNat_ite u.dt, countDown_toNat_ite u.st, u.tick_frame⟩
end

section
/-!
Decode and encode are inverse to one another (R70 to R77): the instructions of the active profile are decoded from their words, and the
optional ones are unknown opcodes under BASE.
-/
namespace Sys2Proof

variable {p : Profile} {w : Word} {i : Instr}

/-- Under EXT every instruction is decoded from its word; under BASE, every one that is no optional instruction (R77). -/
theorem decode_encode (h : i.wellFormed p = true) : decode p (encode i) = .instr i := by
  cases i
  case cls | ret => rfl
  case skp | sknp | waitKey | storeBcd =>
    cases p
    · cases h
    · simp [encode, decode, decodeFamilyE, decodeFamilyF]
  all_goals simp [encode, decode, decodeFamily8, decodeFamilyF]

theorem Instr.wellFormed_of_base (h : i.profile = .base) : i.wellFormed p = true := by
  rw [Instr.wellFormed, h]
  cases p <;> rfl

theorem decodeBytes_encodeBytes (h : i.wellFormed p = true) (rest : List Byte) :
    decodeBytes p (encodeBytes i ++ rest) = some (.instr i, rest) := by
  simp [encodeBytes, decodeBytes, decode_encode h]

/-- Under BASE the word of an optional instruction is an unknown opcode (R77, R180). -/
theorem decode_base_encode_of_ext (h : i.profile = .ext) : decode .base (encode i) = .unknownOpcode (encode i) := by
  cases i
  case skp | sknp => simp [encode, decode, decodeFamilyE]
  case waitKey | storeBcd => simp [encode, decode, decodeFamilyF]
  all_goals cases h

/-- Only BASE lacks instructions, and there their words are unknown. -/
theorem wellFormed_of_decode (h : decode p w = .instr i) : i.wellFormed p = true := by
  obtain rfl := encode_of_decode h
  rw [Instr.wellFormed]
  cases p with
  | ext => cases i.profile <;> rfl
  | base =>
    cases hp : i.profile with
    | base => rfl
    | ext => rw [decode_base_encode_of_ext hp] at h; cases h

end Sys2Proof

open Sys2Proof

/-- Settles O1: the fields of a packed word are the operands it was packed from, and the two bytes joined are the word. -/
theorem decodeOfEncode : Obligations.DecodeOfEncode :=
  fun _ _ rest h => ⟨decode_encode h, decodeBytes_encodeBytes h rest⟩

/-- Settles O2: the fields of a decoded word pack to the word again, and a word of no instruction of the profile is unknown. -/
theorem encodeOfDecode : Obligations.EncodeOfDecode :=
  fun _ _ _ h => ⟨encode_of_decode h, wellFormed_of_decode h⟩

/-- Settles O5: the decoder evaluated at each word. -/
theorem specExampleWordsDecode : Obligations.SpecExampleWordsDecode := by
  unfold Obligations.SpecExampleWordsDecode
  decide
end

section
/-!
The decoder against the mask and match rows of the opcode table (R78), and the unknown words of the base profile by family (R79).
-/
namespace Sys2Proof

variable {p : Profile} {w : Word} {i : Instr} {f n : Nibble} {nn : Byte}

/-! ## The row of an instruction -/

/-- The word of every instruction matches its row, one of the table's. -/
theorem row_statement (i : Instr) : Laws.TableRow.Statement i := by
  cases i
  case cls => exact Laws.TableRow.cls
  case ret => exact Laws.TableRow.ret
  case jp => exact Laws.TableRow.jp _
  case call => exact Laws.TableRow.call _
  case seByte => exact Laws.TableRow.seByte _ _
  case sneByte => exact Laws.TableRow.sneByte _ _
  case seReg => exact Laws.TableRow.seReg _ _
  case ldByte => exact Laws.TableRow.ldByte _ _
  case addByte => exact Laws.TableRow.addByte _ _
  case ldReg => exact Laws.TableRow.ldReg _ _
  case orReg => exact Laws.TableRow.orReg _ _
  case andReg => exact Laws.TableRow.andReg _ _
  case xorReg => exact Laws.TableRow.xorReg _ _
  case addReg => exact Laws.TableRow.addReg _ _
  case shr => exact Laws.TableRow.shr _ _
  case shl => exact Laws.TableRow.shl _ _
  case sneReg => exact Laws.TableRow.sneReg _ _
  case ldI => exact Laws.TableRow.ldI _
  case jpV0 => exact Laws.TableRow.jpV0 _
  case rnd => exact Laws.TableRow.rnd _ _
  case drw => exact Laws.TableRow.drw _ _ _
  case ldVxDt => exact Laws.TableRow.ldVxDt _
  case ldDtVx => exact Laws.TableRow.ldDtVx _
  case ldStVx => exact Laws.TableRow.ldStVx _
  case addI => exact Laws.TableRow.addI _
  case storeRegs => exact Laws.TableRow.storeRegs _
  case loadRegs => exact Laws.TableRow.loadRegs _
  case skp => exact Laws.TableRow.skp _
  case sknp => exact Laws.TableRow.sknp _
  case waitKey => exact Laws.TableRow.waitKey _
  case storeBcd => exact Laws.TableRow.storeBcd _

theorem row_profile (i : Instr) : i.row.profile = i.profile := by cases i <;> rfl

theorem exists_row_of_mem {r : OpcodeRow} (h : r ∈ opcodeTable) : ∃ i : Instr, i.row = r := by
  simp only [opcodeTable, List.mem_append, List.mem_map] at h
  rcases h with ((h | h) | h) | h <;> exact h.imp fun _ hi => hi.2

/-! ## Rows that share a word are equal -/

/-- Under both masks at once, a word that matches two rows shows that their bits agree there. -/
theorem bits_agree_of_matchesWord {r q : OpcodeRow} (hr : r.matchesWord w = true) (hq : q.matchesWord w = true) :
    r.bits &&& q.mask = q.bits &&& r.mask := by
  rw [OpcodeRow.matchesWord, beq_iff_eq] at hr hq
  rw [← hr, ← hq, BitVec.and_assoc, BitVec.and_assoc, BitVec.and_comm r.mask]

theorem eq_of_bits_agree : ∀ r ∈ opcodeTable, ∀ q ∈ opcodeTable, r.bits &&& q.mask = q.bits &&& r.mask → r = q := by
  decide

/-! ## A word that matches a row decodes -/

section
variable {b : Word}

theorem family_of_and_F000 (h : w &&& 0xF000 = b) : family w = BitVec.ofNat 4 (b.toNat / 4096) := by
  rw [← h, ← family_toNat, ← packNNN_fields w, Laws.packNNN_and_F000]
  simp

theorem family_of_and_F00F (h : w &&& 0xF00F = b) : family w = BitVec.ofNat 4 (b.toNat / 4096) := by
  rw [← h, ← family_toNat, ← packXYN_fields w, Laws.packXYN_and_F00F]
  simp

theorem fieldN_of_and_F00F (h : w &&& 0xF00F = b) : fieldN w = BitVec.ofNat 4 (b.toNat % 16) := by
  rw [← h, ← fieldN_toNat, ← packXYN_fields w, Laws.packXYN_and_F00F]
  simp

theorem family_of_and_F0FF (h : w &&& 0xF0FF = b) : family w = BitVec.ofNat 4 (b.toNat / 4096) := by
  rw [← h, ← family_toNat, ← packXNN_fields w, Laws.packXNN_and_F0FF]
  simp

theorem fieldNN_of_and_F0FF (h : w &&& 0xF0FF = b) : fieldNN w = BitVec.ofNat 8 (b.toNat % 256) := by
  rw [← h, ← fieldNN_toNat, ← packXNN_fields w, Laws.packXNN_and_F0FF]
  simp

end

theorem OpcodeRow.and_mask_of_matchesWord {r : OpcodeRow} (h : r.matchesWord w = true) : w &&& r.mask = r.bits :=
  beq_iff_eq.mp h

/-- A word that matches the row of an instruction of the profile is no unknown opcode: the bits under the row's mask choose the branch
of the decoder (R75, R76). -/
theorem decode_ne_unknown_of_matchesWord (hp : i.wellFormed p = true) (h : i.row.matchesWord w = true) (u : Word) :
    decode p w ≠ .unknownOpcode u := by
  have hm := OpcodeRow.and_mask_of_matchesWord h
  cases i
  case cls | ret =>
    obtain rfl := (BitVec.and_allOnes).symm.trans hm
    nofun
  case jp | call | seByte | sneByte | ldByte | addByte | ldI | jpV0 | rnd | drw =>
    simp [decode, family_of_and_F000 hm, Instr.row]
  case seReg | sneReg | ldReg | orReg | andReg | xorReg | addReg | shr | shl =>
    simp [decode, decodeFamily8, family_of_and_F00F hm, fieldN_of_and_F00F hm, Instr.row]
  case ldVxDt | ldDtVx | ldStVx | addI | storeRegs | loadRegs =>
    simp [decode, decodeFamilyF, family_of_and_F0FF hm, fieldNN_of_and_F0FF hm, Instr.row]
  case skp | sknp | waitKey | storeBcd =>
    cases p
    · cases hp
    · simp [decode, decodeFamilyE, decodeFamilyF, family_of_and_F0FF hm, fieldNN_of_and_F0FF hm, Instr.row]

/-! ## The unknown words of each family -/

theorem decodeFamily0_unknown_iff (w : Word) : decodeFamily0 w = .unknownOpcode w ↔ w ≠ 0x00E0 ∧ w ≠ 0x00EE := by
  unfold decodeFamily0
  split
  case h_3 h1 h2 => exact iff_of_true rfl ⟨fun e => h1 (congrArg BitVec.toNat e), fun e => h2 (congrArg BitVec.toNat e)⟩
  all_goals
    next hw => simp [← BitVec.toNat_inj, hw]

theorem decodeFamily8_unknown_iff (w : Word) : decodeFamily8 w = .unknownOpcode w ↔
    fieldN w ∈ ([0x5, 0x7, 0x8, 0x9, 0xA, 0xB, 0xC, 0xD, 0xF] : List Nibble) := by
  have hlt := (fieldN w).isLt
  unfold decodeFamily8
  split
  case h_8 =>
    simp only [List.mem_cons, List.not_mem_nil, or_false, ← BitVec.toNat_inj]
    grind
  all_goals
    next hn => simp [← BitVec.toNat_inj, hn]

theorem decodeFamilyF_base_unknown_iff (w : Word) : decodeFamilyF .base w = .unknownOpcode w ↔
    fieldNN w ∉ ([0x07, 0x15, 0x18, 0x1E, 0x55, 0x65] : List Byte) := by
  unfold decodeFamilyF
  split
  case h_7 hp _ | h_8 hp _ => cases hp
  case h_9 =>
    simp only [List.mem_cons, List.not_mem_nil, or_false, ← BitVec.toNat_inj]
    grind
  all_goals
    next hn => simp [← BitVec.toNat_inj, hn]

end Sys2Proof

open Sys2Proof Sys2Proof.Machine

/-- Settles O3: the word of an instruction matches its row, two rows that match one word are the same, and a word that matches a row of the
profile decodes as an instruction. -/
theorem decodeAgreesWithOpcodeTable : Obligations.DecodeAgreesWithOpcodeTable := by
  intro p w
  refine ⟨fun i hi => ?_, fun u hu => ⟨decode_unknown hu, fun r hr hp => ?_⟩⟩
  · obtain ⟨hmem, hmatch⟩ := row_statement i
    rw [encode_of_decode hi] at hmatch
    refine ⟨hmem, hmatch, ?_, fun r hr hw => ?_⟩
    · rw [row_profile]
      exact wellFormed_of_decode hi
    · exact eq_of_bits_agree r hr i.row hmem (bits_agree_of_matchesWord hw hmatch)
  · obtain ⟨i, rfl⟩ := exists_row_of_mem hr
    rw [row_profile] at hp
    exact Bool.eq_false_iff.mpr fun hw => decode_ne_unknown_of_matchesWord hp hw u hu

/-- Settles O4: the branch of the decoder for each family; families 0, 8 and F by their selectors, 5 and 9 by `N`, E with no row. -/
theorem unknownWordsOfBaseProfile : Obligations.UnknownWordsOfBaseProfile := by
  intro w
  show decode .base w = .unknownOpcode w ↔
    (family w = 0x0 ∧ w ≠ 0x00E0 ∧ w ≠ 0x00EE) ∨
    (family w = 0x5 ∧ fieldN w ≠ 0) ∨
    (family w = 0x8 ∧ fieldN w ∈ ([0x5, 0x7, 0x8, 0x9, 0xA, 0xB, 0xC, 0xD, 0xF] : List Nibble)) ∨
    (family w = 0x9 ∧ fieldN w ≠ 0) ∨
    family w = 0xE ∨
    (family w = 0xF ∧ fieldNN w ∉ ([0x07, 0x15, 0x18, 0x1E, 0x55, 0x65] : List Byte))
  rw [← decodeFamily0_unknown_iff, ← decodeFamily8_unknown_iff, ← decodeFamilyF_base_unknown_iff]
  unfold decode
  simp only [← BitVec.toNat_inj (x := family w)]
  split
  case h_16 =>
    have hf : (family w).toNat = 15 := by have := (family w).isLt; grind
    simp [hf]
  case h_15 hf =>
    have hE : decodeFamilyE .base w = .unknownOpcode w := rfl
    simp [hf, hE]
  case h_6 hf | h_10 hf => by_cases hn : fieldN w = 0 <;> simp [hf, hn]
  all_goals
    next hf => simp [hf]
end

section
/-!
The execute phase, said once for all instructions: which pieces of state each writes, which errors it can raise and when, and that it ends
in one of the two ways. The obligations on who writes what follow from the table of writes (R23 to R40, R51).
-/
namespace Sys2Proof.Machine

/-- The pieces of state an instruction can write; the keypad, the latches, the parameters, the status and the tone are none of them. -/
inductive Piece where
  | v | i | pc | sp | stack | mem | fb | dt | st | diag | draws

end Sys2Proof.Machine

namespace Sys2Proof
open Machine

/-- What each instruction writes when it raises no error. -/
def Instr.writes : Instr → List Piece
  | .cls => [.fb]
  | .drw _ _ _ => [.v, .fb, .diag]
  | .ret => [.sp, .pc]
  | .call _ => [.stack, .sp, .pc]
  | .jp _ | .jpV0 _ | .seByte _ _ | .sneByte _ _ | .seReg _ _ | .sneReg _ _ | .skp _ | .sknp _ => [.pc]
  | .ldByte _ _ | .addByte _ _ | .ldReg _ _ | .orReg _ _ | .andReg _ _ | .xorReg _ _ | .addReg _ _ | .shr _ _ | .shl _ _ => [.v]
  | .ldVxDt _ | .loadRegs _ => [.v]
  | .rnd _ _ => [.v, .draws]
  | .waitKey _ => [.v, .pc]
  | .ldI _ | .addI _ => [.i]
  | .ldDtVx _ => [.dt]
  | .ldStVx _ => [.st]
  | .storeRegs _ | .storeBcd _ => [.mem]

end Sys2Proof

namespace Sys2Proof.Machine

/-- What `t` has of `s`, the listed pieces apart, even when `t` is the entry into an error. -/
structure State.Keeps (ps : List Piece) (s t : State) : Prop where
  v : .v ∉ ps → t.v = s.v
  i : .i ∉ ps → t.i = s.i
  sp : .sp ∉ ps → t.sp = s.sp
  stack : .stack ∉ ps → t.stack = s.stack
  mem : .mem ∉ ps → t.mem = s.mem
  fb : .fb ∉ ps → t.fb = s.fb
  dt : .dt ∉ ps → t.dt = s.dt
  st : .st ∉ ps → t.st = s.st
  draws : .draws ∉ ps → t.draws = s.draws
  key : t.key = s.key
  params : t.params = s.params

/-- `t` is `s` but for the listed pieces, with no error raised. -/
structure State.SameBut (ps : List Piece) (s t : State) : Prop extends State.Keeps ps s t where
  pc : .pc ∉ ps → t.pc = s.pc
  diag : .diag ∉ ps → t.out.diag = s.out.diag
  halt : t.halt = s.halt
  loaded : t.loaded = s.loaded
  status : t.out.status = s.out.status
  tone : t.out.tone = s.out.tone

/-- The errors the execute phase of an instruction can raise, and when (R201, R202). -/
inductive State.CanRaise (s : State) : Instr → Fatal → Prop where
  | overflow (nnn : Addr12) : s.sp.val = 16 → s.CanRaise (.call nnn) (.stackOverflow s.execAddr)
  | underflow : s.sp.val = 0 → s.CanRaise .ret (.stackUnderflow s.execAddr)
  | spriteRow (x y : Reg) (n : Nibble) {a : Nat} :
      s.params.memOob = .fault → 4096 ≤ a → s.CanRaise (.drw x y n) (.addressOutOfRange a)
  | spriteBit (x y : Reg) (n : Nibble) {px py : Nat} :
      s.params.drawOob = .fault → ¬ OnGrid px py → s.CanRaise (.drw x y n) (.drawOutOfBounds px py)
  | store (x : Reg) {a : Nat} : s.params.memOob = .fault → 4096 ≤ a → s.CanRaise (.storeRegs x) (.addressOutOfRange a)
  | load (x : Reg) {a : Nat} : s.params.memOob = .fault → 4096 ≤ a → s.CanRaise (.loadRegs x) (.addressOutOfRange a)
  | digits (x : Reg) {a : Nat} : s.params.memOob = .fault → 4096 ≤ a → s.CanRaise (.storeBcd x) (.addressOutOfRange a)

variable {i : Instr} {s t : State}

theorem exec_storeRegs (s : State) (x : Reg) :
    exec (.storeRegs x) s = s.complete (s.storeBytes s.i.toNat (s.rangeValues x)) := rfl

theorem exec_loadRegs (s : State) (x : Reg) :
    exec (.loadRegs x) s = s.complete (s.loadRange s.i.toNat (registerRange x)) := rfl

theorem exec_storeBcd (s : State) (x : Reg) :
    exec (.storeBcd x) s = s.complete (s.storeBytes s.i.toNat (decimalDigits (s.getV x))) := rfl

/-- The execute phase answers a next state: the old one but for what the instruction writes, or the entry into an error it can raise. -/
theorem exec_outcome (i : Instr) (s : State) :
    (∃ t, exec i s = .next t ∧ s.SameBut i.writes t) ∨ (∃ e, s.CanRaise i e ∧ exec i s = .next (s.raised e)) := by
  cases i
  case ret =>
    obtain ⟨h, hex⟩ | ⟨_, hex⟩ := exec_ret_cases (s := s)
    · exact .inr ⟨_, .underflow h, hex⟩
    · exact .inl ⟨_, hex, by (constructor; constructor) <;> simp [Instr.writes]⟩
  case call nnn =>
    obtain ⟨h, hex⟩ | ⟨_, hex⟩ := exec_call_cases (s := s) nnn
    · exact .inr ⟨_, .overflow nnn h, hex⟩
    · exact .inl ⟨_, hex, by (constructor; constructor) <;> simp [Instr.writes]⟩
  case drw x y n =>
    obtain ⟨d, -, hex⟩ | ⟨e, -, hex, ⟨a, hm, ha, rfl⟩ | ⟨px, py, hd, hg, rfl⟩⟩ := exec_drw_cases (s := s) x y n
    · refine .inl ⟨_, hex, ?_⟩
      (constructor; constructor) <;> simp [Instr.writes] <;> split <;> rfl
    · exact .inr ⟨_, .spriteRow x y n hm ha, hex⟩
    · exact .inr ⟨_, .spriteBit x y n hd hg, hex⟩
  case storeRegs x =>
    rw [exec_storeRegs]
    obtain ⟨t, -, hex, ht, -⟩ | ⟨hm, -, hex⟩ := storeBytes_complete_cases s s.i.toNat (s.rangeValues x)
    · exact .inl ⟨t, hex, ht ▸ by (constructor; constructor) <;> simp [Instr.writes]⟩
    · exact .inr ⟨_, .store x hm (by omega), hex⟩
  case storeBcd x =>
    rw [exec_storeBcd]
    obtain ⟨t, -, hex, ht, -⟩ | ⟨hm, -, hex⟩ := storeBytes_complete_cases s s.i.toNat (decimalDigits (s.getV x))
    · exact .inl ⟨t, hex, ht ▸ by (constructor; constructor) <;> simp [Instr.writes]⟩
    · exact .inr ⟨_, .digits x hm (by omega), hex⟩
  case loadRegs x =>
    obtain ⟨t, hex, ht, -⟩ | ⟨q, -, hm, ha, hex⟩ := exec_loadRegs_cases (s := s) x
    · exact .inl ⟨t, hex, ht ▸ by (constructor; constructor) <;> simp [Instr.writes]⟩
    · exact .inr ⟨_, .load x hm ha, hex⟩
  case waitKey x =>
    refine .inl ⟨_, exec_waitKey s x, ?_⟩
    cases s.leastKey <;> (constructor; constructor) <;> simp [Instr.writes]
  case seByte | sneByte | seReg | sneReg | skp | sknp =>
    refine .inl ⟨_, rfl, ?_⟩
    rw [State.skipIf_eq]
    (constructor; constructor) <;> simp [Instr.writes]
  all_goals
    refine .inl ⟨_, rfl, ?_⟩
    (constructor; constructor) <;> simp [Instr.writes]

/-- The execute phase always answers a next state. -/
theorem exec_completes (i : Instr) (s : State) : ∃ t, exec i s = .next t := by
  obtain ⟨t, ht, -⟩ | ⟨e, -, hex⟩ := exec_outcome i s
  · exact ⟨t, ht⟩
  · exact ⟨_, hex⟩

theorem exec_cases (h : exec i s = .next t) : s.SameBut i.writes t ∨ ∃ e, s.CanRaise i e ∧ t = s.raised e := by
  obtain ⟨u, hu, hsame⟩ | ⟨e, hr, hu⟩ := exec_outcome i s
  · cases hu.symm.trans h
    exact .inl hsame
  · cases hu.symm.trans h
    exact .inr ⟨e, hr, rfl⟩

/-- Whichever way the execute phase ends, it leaves what the instruction does not write. -/
theorem exec_keeps (h : exec i s = .next t) : s.Keeps i.writes t := by
  obtain hsame | ⟨e, -, rfl⟩ := exec_cases h
  · exact hsame.toKeeps
  · constructor <;> intros <;> rfl

/-! ## The writers of each piece -/

theorem fb_notMem_writes (hcls : i ≠ .cls) (hdrw : ∀ x y n, i ≠ .drw x y n) : .fb ∉ i.writes := by
  cases i
  case cls => exact absurd rfl hcls
  case drw => exact absurd rfl (hdrw _ _ _)
  all_goals simp [Instr.writes]

theorem i_notMem_writes (hld : ∀ nnn, i ≠ .ldI nnn) (hadd : ∀ x, i ≠ .addI x) : .i ∉ i.writes := by
  cases i
  case ldI => exact absurd rfl (hld _)
  case addI => exact absurd rfl (hadd _)
  all_goals simp [Instr.writes]

theorem stack_notMem_writes (hcall : ∀ nnn, i ≠ .call nnn) : .stack ∉ i.writes := by
  cases i
  case call => exact absurd rfl (hcall _)
  all_goals simp [Instr.writes]

theorem sp_notMem_writes (hcall : ∀ nnn, i ≠ .call nnn) (hret : i ≠ .ret) : .sp ∉ i.writes := by
  cases i
  case call => exact absurd rfl (hcall _)
  case ret => exact absurd rfl hret
  all_goals simp [Instr.writes]

theorem mem_notMem_writes (hst : ∀ x, i ≠ .storeRegs x) (hbcd : ∀ x, i ≠ .storeBcd x) : .mem ∉ i.writes := by
  cases i
  case storeRegs => exact absurd rfl (hst _)
  case storeBcd => exact absurd rfl (hbcd _)
  all_goals simp [Instr.writes]

theorem dt_notMem_writes (h : ∀ x, i ≠ .ldDtVx x) : .dt ∉ i.writes := by
  cases i
  case ldDtVx => exact absurd rfl (h _)
  all_goals simp [Instr.writes]

theorem st_notMem_writes (h : ∀ x, i ≠ .ldStVx x) : .st ∉ i.writes := by
  cases i
  case ldStVx => exact absurd rfl (h _)
  all_goals simp [Instr.writes]

theorem draws_notMem_writes (h : ∀ x nn, i ≠ .rnd x nn) : .draws ∉ i.writes := by
  cases i
  case rnd => exact absurd rfl (h _ _)
  all_goals simp [Instr.writes]

theorem pc_notMem_writes (h : ¬ i.writesPc) : .pc ∉ i.writes := by
  cases i
  case ret | jp | call | jpV0 | seByte | sneByte | seReg | sneReg | skp | sknp | waitKey => exact absurd trivial h
  all_goals simp [Instr.writes]

/-! ## The registers an instruction writes -/

/-- The flag and the result of 8XY4, 8XY6 and 8XYE are in VF and `V[x]`. -/
theorem State.getV_flag_result {x r : Reg} (flag result : Byte) (hr : ¬ (r = 15 ∨ r = x)) :
    ((s.setV vF flag).setV x result).getV r = s.getV r := by
  obtain ⟨hflag, hx⟩ := not_or.mp hr
  rw [State.getV_setV_ne _ _ _ _ hx, State.getV_setV_ne _ _ _ _ hflag]

/-- An instruction leaves the registers that its row of the access table does not write (R23). -/
theorem exec_getV_of_not_writesReg {r : Reg} (h : exec i s = .next t) (hr : ¬ i.writesReg r) : t.getV r = s.getV r := by
  have hv (hw : .v ∉ i.writes) : t.getV r = s.getV r := congrArg (·[r]) ((exec_keeps h).v hw)
  cases i
  case ldByte | addByte | ldReg | orReg | andReg | xorReg | rnd | ldVxDt =>
    cases h
    exact s.getV_setV_ne _ _ _ hr
  case addReg | shr | shl =>
    cases h
    exact State.getV_flag_result _ _ hr
  case drw x y n =>
    obtain ⟨d, -, hex⟩ | ⟨e, -, hex, -⟩ := exec_drw_cases (s := s) x y n
    · cases hex.symm.trans h
      exact s.getV_setV_ne _ _ _ hr
    · cases hex.symm.trans h
      rfl
  case loadRegs x =>
    obtain ⟨u, hex, -, hu⟩ | ⟨q, -, -, -, hex⟩ := exec_loadRegs_cases (s := s) x
    · cases hex.symm.trans h
      exact (hu r).trans (if_neg hr)
    · cases hex.symm.trans h
      rfl
  case waitKey x =>
    rw [exec_waitKey] at h
    cases h
    cases s.leastKey with
    | none => rfl
    | some k => exact s.getV_setV_ne _ _ _ hr
  all_goals exact hv (by simp [Instr.writes])

end Sys2Proof.Machine

open Sys2Proof Sys2Proof.Machine

/-- Settles O21: none of the other instructions has these pieces in its row of the table of writes. -/
theorem framebufferIndexAndStackWriters : Obligations.FramebufferIndexAndStackWriters := by
  intro i s t h
  have hkeep := exec_keeps h
  exact ⟨fun hcls hdrw => hkeep.fb (fb_notMem_writes hcls hdrw), fun hld hadd => hkeep.i (i_notMem_writes hld hadd),
    fun hcall => hkeep.stack (stack_notMem_writes hcall), fun hcall hret => hkeep.sp (sp_notMem_writes hcall hret)⟩

/-- Settles O22: no instruction but the two stores has memory in its row of the table of writes. -/
theorem onlyStoresChangeMemory : Obligations.OnlyStoresChangeMemory :=
  fun _ _ _ h hst hbcd => (exec_keeps h).mem (mem_notMem_writes hst hbcd)

/-- Settles O23: instruction by instruction, the registers it writes are those of its row. -/
theorem onlyNamedRegistersChange : Obligations.OnlyNamedRegistersChange :=
  fun _ _ _ _ h hr => exec_getV_of_not_writesReg h hr

/-- Settles O24: the table of writes has each timer and the count of draws once, and the keypad and the parameters never. -/
theorem timersKeypadAndParametersWriters : Obligations.TimersKeypadAndParametersWriters := by
  intro i s t h
  have hkeep := exec_keeps h
  exact ⟨fun hdt => hkeep.dt (dt_notMem_writes hdt), fun hst => hkeep.st (st_notMem_writes hst), hkeep.key, hkeep.params,
    fun hrnd => hkeep.draws (draws_notMem_writes hrnd)⟩

/-- Settles O25: with no error latched at the end the instruction completed, and PC is not in its row of the table of writes. -/
theorem otherInstructionsLeavePcAdvanced : Obligations.OtherInstructionsLeavePcAdvanced := by
  intro i s t _ h ht hpc
  obtain hsame | ⟨e, -, rfl⟩ := exec_cases h
  · exact hsame.pc (pc_notMem_writes hpc)
  · cases ht
end

section
/-!
One step: an equation for each way it can go, what the execute phase adds to it, and the obligations on the step (R90 to R105, R180,
R202, R210 to R213).
-/
namespace Sys2Proof.Machine

variable {s t : State}

/-! ## The tick and the entry into an error, as changes of the state before the step -/

theorem countDown_eq_ofNat (b : Byte) : countDown b = BitVec.ofNat 8 (b.toNat - 1) := by
  apply BitVec.eq_of_toNat_eq
  rw [countDown_toNat, BitVec.toNat_ofNat, Nat.mod_eq_of_lt (by have := b.isLt; omega)]

theorem State.tick_eq (s : State) : s.tick =
    { s with dt := BitVec.ofNat 8 (s.dt.toNat - 1), st := BitVec.ofNat 8 (s.st.toNat - 1),
             out := { s.out with tone := decide (0 < s.st.toNat) } } := by
  rw [State.tick, countDown_eq_ofNat, countDown_eq_ofNat, timer_nonzero]

/-- An error of the execute phase leaves PC at the word (R97). -/
theorem State.beginStep_raised (s : State) (e : Fatal) : s.beginStep.raised e = s.takeFatal e := by
  have hpc : s.beginStep.execAddr = s.pc := by simp [State.execAddr]
  rw [State.raised, hpc]
  rfl

/-! ## The ways of a step -/

theorem State.fetch_of_not_fetchable (h : ¬ s.Fetchable) : s.fetch = .error (.addressOutOfRange (max s.pc.toNat 4096)) := by
  cases hf : s.fetch with
  | ok w => exact absurd (State.fetchable_of_fetch hf).1 h
  | error e => rw [(State.fetch_error hf).1]

theorem step_of_not_fetchable (h0 : s.halt = none) (h : ¬ s.Fetchable) :
    step s = .next (s.takeFatal (.addressOutOfRange (max s.pc.toNat 4096))) :=
  step_fetch_error h0 (State.fetch_of_not_fetchable h)

theorem step_of_exec {i : Instr} (h0 : s.halt = none) (hf : s.Fetchable) (hd : s.decoded = .instr i)
    (h : exec i s.beginStep = .next t) : step s = .next t.finishStep := by
  rw [step_fetched h0 hf, hd]
  simp only [State.runDecoded, h]

theorem step_of_exec_running {i : Instr} (h0 : s.halt = none) (hf : s.Fetchable) (hd : s.decoded = .instr i)
    (h : exec i s.beginStep = .next t) (ht : t.halt = none) : step s = .next t.tick := by
  rw [step_of_exec h0 hf hd h, State.finishStep_of_running ht]

theorem step_of_unknown {w : Word} (h0 : s.halt = none) (hf : s.Fetchable) (hd : s.decoded = .unknownOpcode w) :
    step s = .next (s.beginStep.execUnknown s.wordAtPc).tick := by
  obtain rfl := decode_unknown hd
  rw [step_fetched h0 hf, hd]
  simp [State.runDecoded, State.execUnknown, State.finishStep_of_running, h0]

/-! ## Everything a step can do, with the errors and the frames of the execute phase -/

/-- The errors of a step, and when it can raise them: those of the fetch and those of the instruction (R202). -/
inductive State.StepRaises (s : State) (e : Fatal) : Prop where
  | fetch : ¬ s.Fetchable → s.params.memOob = .fault → e = .addressOutOfRange (max s.pc.toNat 4096) → s.StepRaises e
  | exec (i : Instr) : s.Fetchable → s.decoded = .instr i → s.beginStep.CanRaise i e → s.StepRaises e

/-- A step of a running core raises an error and changes nothing else, or completes an instruction, or meets an unknown opcode; only in
the last two do the timers tick. -/
theorem step_outcome (h0 : s.halt = none) (h : step s = .next t) :
    (∃ e, s.StepRaises e ∧ t = s.takeFatal e) ∨
    (s.Fetchable ∧ ∃ i u, s.decoded = .instr i ∧ exec i s.beginStep = .next u ∧ s.beginStep.SameBut i.writes u ∧ t = u.tick) ∨
    (s.Fetchable ∧ s.decoded = .unknownOpcode s.wordAtPc ∧ t = (s.beginStep.execUnknown s.wordAtPc).tick) := by
  obtain ⟨e, he, hf, rfl⟩ | ⟨hf, i, u, hd, hu, rfl⟩ | ⟨hf, hd, rfl⟩ := step_cases h0 h
  · obtain ⟨he, hm, -⟩ := State.fetch_error he
    exact .inl ⟨e, .fetch hf hm he, rfl⟩
  · obtain hsame | ⟨e, hr, rfl⟩ := exec_cases hu
    · exact .inr (.inl ⟨hf, i, u, hd, hu, hsame, State.finishStep_of_running (hsame.halt.trans h0)⟩)
    · rw [State.finishStep_of_halted rfl, State.beginStep_raised]
      exact .inl ⟨e, .exec i hf hd hr, rfl⟩
  · exact .inr (.inr ⟨hf, hd, rfl⟩)

/-- A step that ends with an error latched raised it. -/
theorem step_raised {e : Fatal} (h0 : s.halt = none) (h : step s = .next t) (ht : t.halt = some e) :
    s.StepRaises e ∧ t = s.takeFatal e := by
  obtain ⟨e', hr, rfl⟩ | ⟨-, i, u, -, -, hsame, rfl⟩ | ⟨-, -, rfl⟩ := step_outcome h0 h
  · obtain rfl : e' = e := Option.some.inj ht
    exact ⟨hr, rfl⟩
  · simp [hsame.halt, h0] at ht
  · simp [State.execUnknown, h0] at ht

/-- What the tick of a completed step meets: a timer that the instruction does not write is as before the step, and LD ST, Vx has written
the sound timer. -/
theorem step_completed_timers (h0 : s.halt = none) (h : step s = .next t) (ht : t.halt = none) : ∃ u : State, t = u.tick ∧
    ((∀ x, s.decoded ≠ .instr (.ldDtVx x)) → u.dt = s.dt) ∧ ((∀ x, s.decoded ≠ .instr (.ldStVx x)) → u.st = s.st) ∧
    (∀ x, s.decoded = .instr (.ldStVx x) → u.st = s.getV x) := by
  obtain ⟨e, -, rfl⟩ | ⟨-, i, u, hd, hu, hsame, rfl⟩ | ⟨-, hd, rfl⟩ := step_outcome h0 h
  · cases ht
  · refine ⟨u, rfl, fun hdt => hsame.dt (dt_notMem_writes ?_), fun hst => hsame.st (st_notMem_writes ?_), fun x hx => ?_⟩
    · rintro x rfl
      exact hdt x hd
    · rintro x rfl
      exact hst x hd
    · cases hd.symm.trans hx
      cases hu
      rfl
  · exact ⟨_, rfl, fun _ => rfl, fun _ => rfl, fun x hx => by cases hd.symm.trans hx⟩

/-- The two signals of the sound timer, one before the countdown and one after it, differ at 1 alone (R213, R218). -/
theorem tone_ne_query_iff (v : Byte) : (v != 0) ≠ (countDown v != 0) ↔ v = 1 := by
  rw [timer_nonzero, timer_nonzero, countDown_toNat, ne_eq, decide_eq_decide, ← BitVec.toNat_inj]
  show ¬(0 < v.toNat ↔ 0 < v.toNat - 1) ↔ v.toNat = 1
  omega

end Sys2Proof.Machine

open Sys2Proof Sys2Proof.Machine

/-- Settles O6: the instruction runs on the state that `beginStep` leaves, and the end of the step ticks when no error is latched. -/
theorem stepRunsDecodedInstruction : Obligations.StepRunsDecodedInstruction := by
  intro s t i h0 hf hd h
  refine ⟨fun ht => ?_, fun ht => ?_⟩
  · rw [← State.tick_eq]
    exact step_of_exec_running h0 hf hd h ht
  · obtain ⟨e, he⟩ := Option.ne_none_iff_exists'.mp ht
    rw [step_of_exec h0 hf hd h, State.finishStep_of_halted he]

/-- Settles O7: the report is all that the execute phase adds before the tick. -/
theorem unknownOpcodeOnlyAdvancesAndTicks : Obligations.UnknownOpcodeOnlyAdvancesAndTicks := by
  intro s w h0 hf hd
  rw [step_of_unknown h0 hf hd, State.beginStep_execUnknown, State.tick_eq]

/-- Settles O8: a halted core, a failed fetch, an unknown opcode and an instruction each answer a next state. -/
theorem everyStepCompletes : Obligations.EveryStepCompletes := by
  intro s
  cases h0 : s.halt with
  | some e => exact ⟨_, step_halted h0⟩
  | none =>
    by_cases hf : s.Fetchable
    · cases hd : s.decoded with
      | unknownOpcode w => exact ⟨_, step_of_unknown h0 hf hd⟩
      | instr i =>
        obtain ⟨u, hu⟩ := exec_completes i s.beginStep
        exact ⟨_, step_of_exec h0 hf hd hu⟩
    · exact ⟨_, step_of_not_fetchable h0 hf⟩

/-- Settles O9: the halted check comes first. -/
theorem haltedStepChangesNothing : Obligations.HaltedStepChangesNothing :=
  fun _ _ h => step_halted h

/-- Settles O10: the two bytes are read in order, so the first address past memory is PC, or 4096 when only the second byte is there. -/
theorem fetchPastMemoryFaults : Obligations.FetchPastMemoryFaults := by
  intro s h0 hm hpc
  have hf : ¬ s.Fetchable := by
    simp only [State.Fetchable, State.Reaches, hm]
    simpa using hpc
  have hfirst : (if s.pc.toNat < 4096 then 4096 else s.pc.toNat) = max s.pc.toNat 4096 := by
    split <;> omega
  rw [hfirst]
  exact step_of_not_fetchable h0 hf

/-- Settles O11: an error is raised on the state before the step, whatever the phase. -/
theorem fatalStepLeavesStateAsItWas : Obligations.FatalStepLeavesStateAsItWas :=
  fun _ _ _ h0 h ht => (step_raised h0 h ht).2

/-- Settles O12: error by error, from what the fetch and each instruction can raise. -/
theorem whichStepRaisesWhichError : Obligations.WhichStepRaisesWhichError := by
  intro s t e h0 h ht
  have hpc : s.beginStep.execAddr = s.pc := by simp [State.execAddr]
  obtain ⟨hf, hm, rfl⟩ | ⟨i, hf, hd, hr⟩ := (step_raised h0 h ht).1
  · exact .inr (.inr (.inl ⟨_, hm, le_max_right _ _, rfl, .inl hf⟩))
  · cases hr with
    | overflow nnn hsp => exact .inl ⟨nnn, hf, hd, hsp, by rw [hpc]⟩
    | underflow hsp => exact .inr (.inl ⟨hf, hd, hsp, by rw [hpc]⟩)
    | spriteRow x y n hm ha => exact .inr (.inr (.inl ⟨_, hm, ha, rfl, .inr (.inl ⟨x, y, n, hd⟩)⟩))
    | store x hm ha => exact .inr (.inr (.inl ⟨_, hm, ha, rfl, .inr (.inr (.inl ⟨x, hd⟩))⟩))
    | load x hm ha => exact .inr (.inr (.inl ⟨_, hm, ha, rfl, .inr (.inr (.inr (.inl ⟨x, hd⟩)))⟩))
    | digits x hm ha => exact .inr (.inr (.inl ⟨_, hm, ha, rfl, .inr (.inr (.inr (.inr ⟨x, hd⟩)))⟩))
    | spriteBit x y n hdraw hg =>
      rename_i px py
      have hoff : 64 ≤ px ∨ 32 ≤ py := by
        unfold OnGrid at hg
        omega
      exact .inr (.inr (.inr ⟨px, py, x, y, n, hdraw, hoff, rfl, hf, hd⟩))

/-- Settles O14: the tick meets the timers as they were, but for the one the instruction writes. -/
theorem timersCountCompletedSteps : Obligations.TimersCountCompletedSteps := by
  intro s t h0 h ht
  obtain ⟨u, rfl, hdt, hst, -⟩ := step_completed_timers h0 h ht
  refine ⟨fun hd => ?_, fun hd => ?_⟩
  · rw [State.tick_dt, countDown_toNat, hdt hd]
  · rw [State.tick_st, countDown_toNat, hst hd]

/-- Settles O15: the jump puts PC back, so the next step meets the same word at the same PC. -/
theorem idleLoopChangesOnlyTimers : Obligations.IdleLoopChangesOnlyTimers := by
  rintro s ⟨h0, hf, nnn, hd, hpc⟩
  have hback : s.beginStep.setPc (addressOperand nnn) =
      { s with loaded := true, out := { status := .ok, diag := .none, tone := false } } := by
    rw [addressOperand, ← hpc]
    rfl
  have hstep := step_of_exec_running h0 hf hd (exec_jp s.beginStep nnn) h0
  rw [hback, State.tick_eq] at hstep
  exact ⟨_, hstep, ⟨h0, hf, nnn, hd, hpc⟩, rfl⟩

/-- Settles O50: the step is the tick of what the instruction leaves. -/
theorem timerWriteIsTickedInTheSameStep : Obligations.TimerWriteIsTickedInTheSameStep := by
  intro s x h0 hf
  refine ⟨fun hd => ?_, fun hd => ?_, fun hd => ?_⟩
  · exact ⟨_, step_of_exec_running h0 hf hd (exec_ldDtVx _ x) h0, countDown_toNat _, countDown_toNat _⟩
  · refine ⟨_, step_of_exec_running h0 hf hd (exec_ldStVx _ x) h0, countDown_toNat _, countDown_toNat _, ?_⟩
    rw [State.tick_out, Bool.eq_iff_iff]
    simp
  · exact ⟨_, step_of_exec_running h0 hf hd (exec_ldVxDt _ x) h0, State.getV_setV_same _ _ _, countDown_toNat _⟩

/-- Settles O51: the tone is of the sound timer the tick meets, and the query of what the tick leaves. -/
theorem toneAndSoundQueryDifferOnlyAtOne : Obligations.ToneAndSoundQueryDifferOnlyAtOne := by
  intro s t h0 h ht
  obtain ⟨u, rfl, -, hkept, hwritten⟩ := step_completed_timers h0 h ht
  exact ⟨u.st, hwritten, hkept, countDown_toNat _, tone_ne_query_iff _, by simp⟩

/-- Settles O54: the decoder is the gate, and the step is that of an unknown opcode. -/
theorem baseProfileGatesExtensions : Obligations.BaseProfileGatesExtensions := by
  intro s i hext hbase h0 hf hw
  have hd : s.decoded = .unknownOpcode (encode i) := by
    rw [State.decoded, hbase, hw, decode_base_encode_of_ext hext]
  refine ⟨_, unknownOpcodeOnlyAdvancesAndTicks s _ h0 hf hd, rfl, ?_, rfl, rfl⟩
  rw [hw]
end

section
/-!
The invariants: canonical memory and outputs that agree with the error latch, kept by every step and by every move of the host; equal
contents are equal data; and PC with the return addresses in the program region (R28).
-/
namespace Sys2Proof.Machine

variable {s t : State} {i : Instr}

/-! ## Canonical memory -/

/-- A store writes below 4096, and no other instruction writes memory. -/
theorem exec_mem_wf (h : exec i s = .next t) (hwf : s.mem.wf = true) : t.mem.wf = true := by
  have hstore (bs : List Byte) (hc : s.complete (s.storeBytes s.i.toNat bs) = .next t) : t.mem.wf = true := by
    obtain ⟨u, -, hu, -, huwf⟩ | ⟨-, -, hu⟩ := storeBytes_complete_cases s s.i.toNat bs
    · cases hu.symm.trans hc
      exact huwf hwf
    · cases hu.symm.trans hc
      exact hwf
  by_cases hmem : .mem ∈ i.writes
  · cases i
    case storeRegs x => exact hstore _ h
    case storeBcd x => exact hstore _ h
    all_goals simp [Instr.writes] at hmem
  · rw [(exec_keeps h).mem hmem]
    exact hwf

/-! ## Outputs that agree with the latch -/

theorem State.latchAgrees_of_running (h : s.halt = none) (hok : s.out.status = .ok) : s.latchAgrees := by
  rw [State.latchAgrees, h]
  exact hok

theorem State.latchAgrees_of_fatal {e : Fatal} (h : s.halt = some e) (hload : s.loaded = true)
    (hout : s.out = { status := .fatal e, diag := .none, tone := false }) : s.latchAgrees := by
  rw [State.latchAgrees, h]
  exact ⟨hload, hout⟩

theorem State.loaded_of_latchAgrees {e : Fatal} (hs : s.latchAgrees) (h : s.halt = some e) : s.loaded = true := by
  rw [State.latchAgrees, h] at hs
  exact hs.1

/-! ## The invariant along steps and sessions -/

theorem step_inv (hs : s.Inv) (h : step s = .next t) : t.Inv := by
  obtain ⟨hwf, hlatch⟩ := hs
  cases h0 : s.halt with
  | some e =>
    have hload : s.loaded = true := State.loaded_of_latchAgrees hlatch h0
    cases (step_halted h0).symm.trans h
    exact ⟨hwf, State.latchAgrees_of_fatal h0 hload rfl⟩
  | none =>
    obtain ⟨e, -, rfl⟩ | ⟨-, i, u, -, hu, hsame, rfl⟩ | ⟨-, -, rfl⟩ := step_outcome h0 h
    · exact ⟨hwf, State.latchAgrees_of_fatal rfl rfl rfl⟩
    · have huwf : u.mem.wf = true := exec_mem_wf hu hwf
      exact ⟨huwf, State.latchAgrees_of_running (hsame.halt.trans h0) hsame.status⟩
    · exact ⟨hwf, State.latchAgrees_of_running h0 rfl⟩

theorem State.resetWith_inv (p : Params) : (State.resetWith p).Inv :=
  ⟨Memory.ofFont_wf p.font, rfl⟩

/-- A load below the end of memory keeps memory canonical, and LOADED true agrees with any latch. -/
theorem State.load_inv (hs : s.Inv) (bytes : List Byte) : (s.load bytes).2.Inv := by
  cases hload : s.loaded with
  | true => rwa [State.load_of_loaded hload]
  | false =>
    by_cases hlen : maxProgram < bytes.length
    · rwa [State.load_of_tooLarge hload hlen]
    · obtain ⟨hwf, hlatch⟩ := hs
      rw [State.load_of_fits hload (by omega)]
      have hfit : 0x200 + bytes.length ≤ 4096 := by
        unfold maxProgram at hlen
        omega
      refine ⟨s.mem.writeList_wf bytes 0x200 hwf hfit, ?_⟩
      cases h0 : s.halt with
      | some e => cases hload.symm.trans (State.loaded_of_latchAgrees hlatch h0)
      | none =>
        rw [State.latchAgrees, h0] at hlatch
        exact State.latchAgrees_of_running rfl hlatch

theorem State.writeKeys_inv (hs : s.Inv) (keys : List (Reg × Bool)) : (s.writeKeys keys).Inv := by
  rw [State.writeKeys_frame]
  exact hs

theorem State.answer_step (h : step s = .next t) : s.answer .step = (.stepped t.out, t) := by
  simp only [State.answer, h]

theorem State.answer_inv (hs : s.Inv) (m : HostMove) : (s.answer m).2.Inv := by
  cases m with
  | load bytes => exact State.load_inv hs bytes
  | step =>
    obtain ⟨t, ht⟩ := everyStepCompletes s
    rw [State.answer_step ht]
    exact step_inv hs ht
  | readFramebuffer => exact hs
  | writeKeypad keys => exact State.writeKeys_inv hs keys
  | querySound => exact hs
  | reset => exact State.resetWith_inv s.params

theorem State.session_inv (hs : s.Inv) (moves : List HostMove) : (s.session moves).Inv := by
  induction moves generalizing s with
  | nil => exact hs
  | cons m moves ih => exact ih (State.answer_inv hs m)

/-! ## Equal contents are equal data -/

/-- A memory canonical from above `b` on is blank at `b`, where a canonical memory with a cell is not. -/
theorem Memory.head_not_below {m m' : Memory} {lo lo' b : Nat} {u : Byte} (hm : Memory.wfFrom lo ((b, u) :: m) = true)
    (hm' : Memory.wfFrom lo' m' = true) (h : Memory.read ((b, u) :: m) b = m'.read b) : ¬ b < lo' := by
  intro hb
  simp only [Memory.wfFrom, Bool.and_eq_true, decide_eq_true_eq] at hm
  obtain ⟨⟨-, hu⟩, -⟩ := hm
  rw [Memory.read_cons, if_pos rfl, m'.read_below lo' b hm' hb] at h
  exact hu h

theorem Memory.wfFrom_head {m : Memory} {lo b : Nat} {u : Byte} (hm : Memory.wfFrom lo ((b, u) :: m) = true) :
    Memory.wfFrom b ((b, u) :: m) = true ∧ Memory.wfFrom (b + 1) m = true := by
  simp only [Memory.wfFrom, Bool.and_eq_true, decide_eq_true_eq] at hm ⊢
  obtain ⟨⟨⟨-, hb⟩, hu⟩, htail⟩ := hm
  exact ⟨⟨⟨⟨Nat.le_refl b, hb⟩, hu⟩, htail⟩, htail⟩

/-- Neither memory can have the lower first cell; the first cells hold what both read there, and the rest reads alike. -/
theorem Memory.eq_of_read_eq {m m' : Memory} {lo lo' : Nat} (hm : Memory.wfFrom lo m = true) (hm' : Memory.wfFrom lo' m' = true)
    (h : ∀ a, m.read a = m'.read a) : m = m' := by
  induction m generalizing m' lo lo' with
  | nil =>
    cases m' with
    | nil => rfl
    | cons c' m' => exact absurd (Nat.lt_succ_self c'.1) (Memory.head_not_below (m' := []) hm' rfl (h c'.1).symm)
  | cons c m ih =>
    obtain ⟨b, u⟩ := c
    cases m' with
    | nil => exact absurd (Nat.lt_succ_self b) (Memory.head_not_below (m' := []) hm rfl (h b))
    | cons c' m' =>
      obtain ⟨b', u'⟩ := c'
      obtain ⟨hb, htail⟩ := Memory.wfFrom_head hm
      obtain ⟨hb', htail'⟩ := Memory.wfFrom_head hm'
      obtain rfl : b = b' :=
        Nat.le_antisymm (Nat.not_lt.mp (Memory.head_not_below hm' hb (h b').symm)) (Nat.not_lt.mp (Memory.head_not_below hm hb' (h b)))
      obtain rfl : u = u' := by simpa [Memory.read_cons] using h b
      have hrest : ∀ a, Memory.read m a = Memory.read m' a := by
        intro a
        by_cases ha : a = b
        · rw [Memory.read_below m (b + 1) a htail (by omega), Memory.read_below m' (b + 1) a htail' (by omega)]
        · simpa [Memory.read_cons, ha] using h a
      rw [ih htail htail' hrest]

/-! ## PC in the program region -/

theorem GoodTarget.add {a : Word} (h : GoodTarget a) {k : Word} (hk : k.toNat % 2 = 0) (hle : a.toNat + k.toNat ≤ 0xFFE) :
    GoodTarget (a + k) := by
  obtain ⟨heven, hlow, -⟩ := h
  have hsum : (a + k).toNat = a.toNat + k.toNat := by
    rw [BitVec.toNat_add, Nat.mod_eq_of_lt (by omega)]
  exact ⟨by omega, by omega, by omega⟩

/-- A step that leaves the stack alone is good when the PC it leaves is. -/
theorem State.PcInv.of_stack_eq (hs : s.PcInv) (hsp : t.sp = s.sp) (hstack : t.stack = s.stack) (hpc : GoodTarget t.pc) : t.PcInv := by
  obtain ⟨-, hslots⟩ := hs
  refine ⟨hpc, ?_⟩
  rw [hsp, hstack]
  exact hslots

/-- RET takes PC from an occupied slot, and occupies no other. -/
theorem exec_ret_pcInv (hslots : ∀ j : Fin 16, j.val < s.sp.val → GoodTarget s.stack[j]) (h : exec .ret s = .next t)
    (ht : t.halt = none) : t.PcInv := by
  obtain ⟨-, hex⟩ | ⟨hsp, hex⟩ := exec_ret_cases (s := s)
  · cases hex.symm.trans h
    cases ht
  · cases hex.symm.trans h
    exact ⟨hslots ⟨s.sp.val - 1, by omega⟩ (by simp; omega), fun j hj => hslots j (Nat.lt_of_lt_of_le hj (Nat.sub_le _ _))⟩

/-- CALL pushes PC and jumps. -/
theorem exec_call_pcInv {nnn : Addr12} (hs : s.PcInv) (htarget : GoodTarget (nnn.setWidth 16)) (h : exec (.call nnn) s = .next t)
    (ht : t.halt = none) : t.PcInv := by
  obtain ⟨hpc, hslots⟩ := hs
  obtain ⟨-, hex⟩ | ⟨hsp, hex⟩ := exec_call_cases (s := s) nnn
  · cases hex.symm.trans h
    cases ht
  · cases hex.symm.trans h
    refine ⟨htarget, fun j hj => ?_⟩
    by_cases hj' : j.val = s.sp.val
    · simpa [hj'] using hpc
    · have hlt : j.val < s.sp.val := Nat.lt_of_le_of_ne (Nat.le_of_lt_succ hj) hj'
      simpa [Vector.getElem_set_ne _ _ (Ne.symm hj')] using hslots j hlt

/-- A skip goes one word on or stays, from the word after the skip. -/
theorem GoodTarget.skipIf (h : GoodTarget s.pc) (hle : s.pc.toNat + 4 ≤ 0xFFE) (c : Bool) : GoodTarget (s.beginStep.skipIf c).pc := by
  have hnext : GoodTarget (s.pc + 2) := h.add rfl (Nat.le_trans (Nat.add_le_add_left (by decide) _) hle)
  cases c with
  | false => exact hnext
  | true =>
    have hskip : s.pc + 2 + 2 = s.pc + 4 := BitVec.add_assoc ..
    show GoodTarget (s.pc + 2 + 2)
    rw [hskip]
    exact h.add rfl hle

/-- By what the instruction does with PC: RET and CALL use the stack, jumps take a target, skips and the key wait choose between two
words, and every other instruction leaves PC past its word (R26, R28). -/
theorem exec_pcInv (hs : s.PcInv) (hstay : s.StaysInProgram (.instr i)) (h : exec i s.beginStep = .next t)
    (hsame : s.beginStep.SameBut i.writes t) (ht : t.halt = none) : t.PcInv := by
  have hkept (hsp : .sp ∉ i.writes) (hstack : .stack ∉ i.writes) (hgood : GoodTarget t.pc) : t.PcInv :=
    hs.of_stack_eq (hsame.sp hsp) (hsame.stack hstack) hgood
  obtain ⟨hpc, hslots⟩ := hs
  have hnext (hle : s.pc.toNat + 2 ≤ 0xFFE) : GoodTarget (s.pc + 2) := hpc.add rfl hle
  cases i
  case ret => exact exec_ret_pcInv (s := s.beginStep) hslots h ht
  case call nnn =>
    obtain ⟨htarget, hle⟩ := hstay
    exact exec_call_pcInv (s := s.beginStep) ⟨hnext hle, hslots⟩ htarget h ht
  case jp | jpV0 =>
    cases h
    exact hkept (by simp [Instr.writes]) (by simp [Instr.writes]) hstay
  case seByte | sneByte | seReg | sneReg | skp | sknp =>
    cases h
    exact hkept (by simp [Instr.writes]) (by simp [Instr.writes]) (hpc.skipIf hstay _)
  case waitKey x =>
    refine hkept (by simp [Instr.writes]) (by simp [Instr.writes]) ?_
    rw [exec_waitKey] at h
    cases h
    cases s.beginStep.leastKey with
    | some k => exact hnext hstay
    | none => simpa using hpc
  all_goals
    refine hkept (by simp [Instr.writes]) (by simp [Instr.writes]) ?_
    rw [hsame.pc (by simp [Instr.writes])]
    exact hnext hstay

end Sys2Proof.Machine

open Sys2Proof Sys2Proof.Machine

/-- Settles O19: an error leaves PC and the stack, an unknown opcode advances, and an instruction does as its row says. -/
theorem pcStaysEvenAndInProgram : Obligations.PcStaysEvenAndInProgram := by
  intro s t h0 hs hstay h
  obtain ⟨e, -, rfl⟩ | ⟨-, i, u, hd, hu, hsame, rfl⟩ | ⟨-, hd, rfl⟩ := step_outcome h0 h
  · exact hs
  · rw [hd] at hstay
    have huinv : u.PcInv := exec_pcInv hs hstay hu hsame (hsame.halt.trans h0)
    exact huinv
  · rw [hd] at hstay
    exact hs.of_stack_eq rfl rfl (hs.1.add rfl hstay)

/-- Settles O16: the execute phase keeps memory canonical, and a step latches an error together with its outputs or not at all. -/
theorem stepKeepsInvariant : Obligations.StepKeepsInvariant :=
  fun _ _ hs h => step_inv hs h

/-- Settles O17: the font is written into an empty list, and no error is latched. -/
theorem resetHasInvariant : Obligations.ResetHasInvariant :=
  ⟨⟨Memory.reset_wf, rfl⟩, State.resetWith_inv⟩

/-- Settles O18: every construction has the invariant, and each move of the host keeps it. -/
theorem reachableStatesHaveInvariant : Obligations.ReachableStatesHaveInvariant := by
  rintro s ⟨p, moves, rfl⟩
  exact State.session_inv (State.resetWith_inv p) moves

/-- Settles O20: by induction on the two lists, least cell first. -/
theorem canonicalMemoriesReadAlikeAreEqual : Obligations.CanonicalMemoriesReadAlikeAreEqual :=
  fun _ _ hm hm' h => Memory.eq_of_read_eq hm hm' h
end

section
/-!
Isolation: a change of what the execute phase does not read passes through a step untouched. One change covers the keypad, FONT and the
count of draws (R36, R104).
-/
namespace Sys2Proof.Machine

/-- The state with other keys, another FONT and another count of draws. -/
def State.disguise (key : Vector Bool 16 → Vector Bool 16) (font : Vector Byte 80 → Vector Byte 80) (draws : Nat → Nat) (s : State) :
    State :=
  { s with key := key s.key, params := { s.params with font := font s.params.font }, draws := draws s.draws }

variable {key : Vector Bool 16 → Vector Bool 16} {font : Vector Byte 80 → Vector Byte 80} {draws : Nat → Nat}
variable {i : Instr} {s t : State}

/-! ## The operations that read memory or meet an error -/

theorem State.storeBytes_disguise (s : State) (a : Nat) (bs : List Byte) :
    (s.disguise key font draws).storeBytes a bs = (s.storeBytes a bs).map (State.disguise key font draws) := by
  induction bs generalizing s a with
  | nil => rfl
  | cons b bs ih =>
    have hwrite : (s.disguise key font draws).memWrite a b = (s.memWrite a b).map (State.disguise key font draws) := by
      simp only [State.memWrite, State.disguise]
      cases effectiveAddress s.params.memOob a <;> rfl
    simp only [State.storeBytes, hwrite]
    cases s.memWrite a b with
    | ok t => exact ih t (a + 1)
    | error e => rfl

theorem State.loadRange_disguise (s : State) (a : Nat) (rs : List Reg) :
    (s.disguise key font draws).loadRange a rs = (s.loadRange a rs).map (State.disguise key font draws) := by
  induction rs generalizing s with
  | nil => rfl
  | cons r rs ih =>
    have hread : (s.disguise key font draws).memRead (a + r.val) = s.memRead (a + r.val) := rfl
    simp only [State.loadRange, hread]
    cases s.memRead (a + r.val) with
    | ok b => exact ih (s.setV r b)
    | error e => rfl

theorem State.drawRows_disguise (s : State) (x0 y0 : Nat) (d : Drawing) (rs : List Nat) :
    (s.disguise key font draws).drawRows x0 y0 d rs = s.drawRows x0 y0 d rs := by
  induction rs generalizing d with
  | nil => rfl
  | cons r rs ih =>
    have hread : (s.disguise key font draws).memRead (s.i.toNat + r) = s.memRead (s.i.toNat + r) := rfl
    have hi : (s.disguise key font draws).i = s.i := rfl
    have hoob : (s.disguise key font draws).params.drawOob = s.params.drawOob := rfl
    simp only [State.drawRows, hi, hoob, hread, ih]

/-- The outcome in the other state. -/
def Result.disguise (key : Vector Bool 16 → Vector Bool 16) (font : Vector Byte 80 → Vector Byte 80) (draws : Nat → Nat) :
    Result → Result
  | .next t => .next (t.disguise key font draws)
  | .fault r => .fault r
  | .refused r => .refused r

theorem State.complete_disguise (s : State) (r : Except Fatal State) :
    (s.disguise key font draws).complete (r.map (State.disguise key font draws)) = Result.disguise key font draws (s.complete r) := by
  cases r <;> rfl

theorem State.skipIf_disguise (s : State) (c : Bool) :
    (s.disguise key font draws).skipIf c = (s.skipIf c).disguise key font draws := by
  cases c <;> rfl

/-! ## The execute phase and the step -/

/-- Only the optional instructions EX9E, EXA1 and FX0A read the keys, and only CXNN reads and advances the count of draws. -/
theorem exec_disguise (i : Instr) (s : State) (hkey : key = id ∨ i.profile = .base) (hdraws : draws = id ∨ ∀ x nn, i ≠ .rnd x nn) :
    exec i (s.disguise key font draws) = Result.disguise key font draws (exec i s) := by
  cases i
  case ret =>
    by_cases h : s.sp.val = 0
    · rw [exec_ret_of_empty h, exec_ret_of_empty (s := s.disguise key font draws) h]
      rfl
    · have hpos : 0 < s.sp.val := by omega
      rw [exec_ret_of_occupied hpos, exec_ret_of_occupied (s := s.disguise key font draws) hpos]
      rfl
  case call nnn =>
    by_cases h : s.sp.val = 16
    · rw [exec_call_of_full nnn h, exec_call_of_full (s := s.disguise key font draws) nnn h]
      rfl
    · have hroom : s.sp.val < 16 := by omega
      rw [exec_call_of_room nnn hroom, exec_call_of_room (s := s.disguise key font draws) nnn hroom]
      rfl
  case drw x y n =>
    have hdraw : (s.disguise key font draws).drawSprite x y n = s.drawSprite x y n := State.drawRows_disguise ..
    simp only [exec, execDrw, hdraw]
    cases s.drawSprite x y n with
    | ok d =>
      dsimp only [Result.disguise]
      cases d.clipped <;> rfl
    | error e => rfl
  case storeRegs x =>
    have hs := State.storeBytes_disguise (key := key) (font := font) (draws := draws) s s.i.toNat (s.rangeValues x)
    exact (congrArg _ hs).trans (State.complete_disguise ..)
  case storeBcd x =>
    have hs := State.storeBytes_disguise (key := key) (font := font) (draws := draws) s s.i.toNat (decimalDigits (s.getV x))
    exact (congrArg _ hs).trans (State.complete_disguise ..)
  case loadRegs x =>
    have hs := State.loadRange_disguise (key := key) (font := font) (draws := draws) s s.i.toNat (registerRange x)
    exact (congrArg _ hs).trans (State.complete_disguise ..)
  case rnd x nn =>
    obtain rfl := hdraws.resolve_right fun h => h x nn rfl
    rfl
  case skp | sknp =>
    obtain rfl := hkey.resolve_right nofun
    exact congrArg _ (State.skipIf_disguise ..)
  case waitKey x =>
    obtain rfl := hkey.resolve_right nofun
    have hleast : (s.disguise id font draws).leastKey = s.leastKey := rfl
    rw [exec_waitKey, exec_waitKey, hleast]
    cases s.leastKey <;> rfl
  case seByte | sneByte | seReg | sneReg => exact congrArg _ (State.skipIf_disguise ..)
  all_goals rfl

theorem State.finishStep_disguise (s : State) :
    (s.disguise key font draws).finishStep = s.finishStep.disguise key font draws := by
  cases h : s.halt with
  | none =>
    rw [State.finishStep_of_running h, State.finishStep_of_running (s := s.disguise key font draws) h]
    rfl
  | some e => rw [State.finishStep_of_halted h, State.finishStep_of_halted (s := s.disguise key font draws) h]

theorem profile_of_wellFormed_base (h : i.wellFormed .base = true) : i.profile = .base := by
  rw [Instr.wellFormed] at h
  cases hp : i.profile with
  | base => rfl
  | ext => rw [hp] at h; cases h

/-- Under BASE the optional instructions are not decoded, so no step reads the keys; and a step whose word is no CXNN reads no count. -/
theorem step_disguise (h : step s = .next t) (hkey : key = id ∨ s.params.profile = .base)
    (hdraws : draws = id ∨ (s.halt = none → s.Fetchable → ∀ x nn, s.decoded ≠ .instr (.rnd x nn))) :
    step (s.disguise key font draws) = .next (t.disguise key font draws) := by
  cases h0 : s.halt with
  | some e =>
    cases (step_halted h0).symm.trans h
    exact step_halted (s := s.disguise key font draws) h0
  | none =>
    by_cases hf : s.Fetchable
    · cases hd : s.decoded with
      | unknownOpcode w =>
        cases (step_of_unknown h0 hf hd).symm.trans h
        exact step_of_unknown (s := s.disguise key font draws) h0 hf hd
      | instr i =>
        have hbase : key = id ∨ i.profile = .base := hkey.imp_right fun (hp : s.params.profile = .base) =>
          profile_of_wellFormed_base (hp ▸ wellFormed_of_decode hd)
        have hrnd : draws = id ∨ ∀ x nn, i ≠ .rnd x nn := hdraws.imp_right fun hn x nn hi => hn h0 hf x nn (hi ▸ hd)
        have hexec := exec_disguise (font := font) i s.beginStep hbase hrnd
        obtain ⟨u, hu⟩ := exec_completes i s.beginStep
        rw [hu] at hexec
        cases (step_of_exec h0 hf hd hu).symm.trans h
        rw [← State.finishStep_disguise]
        exact step_of_exec (s := s.disguise key font draws) h0 hf hd hexec
    · cases (step_of_not_fetchable h0 hf).symm.trans h
      exact step_of_not_fetchable (s := s.disguise key font draws) h0 hf

/-- A step whose word is no CXNN counts no draw. -/
theorem step_draws (h : step s = .next t) (hrnd : s.halt = none → s.Fetchable → ∀ x nn, s.decoded ≠ .instr (.rnd x nn)) :
    t.draws = s.draws := by
  cases h0 : s.halt with
  | some e =>
    cases (step_halted h0).symm.trans h
    rfl
  | none =>
    obtain ⟨e, -, rfl⟩ | ⟨hf, i, u, hd, -, hsame, rfl⟩ | ⟨-, -, rfl⟩ := step_outcome h0 h
    · rfl
    · refine hsame.draws (draws_notMem_writes ?_)
      rintro x nn rfl
      exact hrnd h0 hf x nn hd
    · rfl

end Sys2Proof.Machine

open Sys2Proof Sys2Proof.Machine

/-- Settles O26: the other keys pass through the step. -/
theorem baseProfileNeverReadsKeypad : Obligations.BaseProfileNeverReadsKeypad := by
  intro s t k hbase h
  exact step_disguise (key := fun _ => k) (font := id) (draws := id) h (.inr hbase) (.inl rfl)

/-- Settles O27: the other FONT passes through every step, and the other count of draws through every step that runs no CXNN. -/
theorem randomByteAffectsOnlyRndAndFontOnlyReset : Obligations.RandomByteAffectsOnlyRndAndFontOnlyReset := by
  intro s t n f h
  refine ⟨?_, fun hrnd => ⟨step_draws h hrnd, ?_⟩⟩
  · exact step_disguise (key := id) (font := fun _ => f) (draws := id) h (.inl rfl) (.inl rfl)
  · exact step_disguise (key := id) (font := id) (draws := fun _ => n) h (.inl rfl) (.inr hrnd)
end

section
/-!
DRW (R111 to R114): the effect of a draw that completes, cell by cell; a second draw undoes the first; and the first error a draw meets in
the order of its rows and columns (R206).
-/
namespace Sys2Proof.Machine

variable {s t : State} {x y : Reg} {n : Nibble} {px py : Nat}

/-! ## A draw that completes -/

/-- The state a completed draw leaves. -/
def State.drawn (s : State) (x y : Reg) (n : Nibble) (d : Drawing) : State :=
  { s with v := s.v.set 15 (collisionFlag d.hit), fb := d.fb,
           out := if d.clipped then { s.out with diag := .drawClipped (encode (.drw x y n)) s.execAddr } else s.out }

theorem State.drawn_vF_of_hit (s : State) (x y : Reg) (n : Nibble) {d : Drawing} (h : d.hit = true) : (s.drawn x y n d).getV 15 = 1 :=
  (s.getV_setV_same 15 _).trans (by rw [h]; rfl)

theorem State.drawn_vF_of_no_hit (s : State) (x y : Reg) (n : Nibble) {d : Drawing} (h : ¬ d.hit = true) :
    (s.drawn x y n d).getV 15 = 0 :=
  (s.getV_setV_same 15 _).trans (by rw [Bool.eq_false_iff.mpr h]; rfl)

theorem State.not_hit_of_drawn_vF {d : Drawing} (h : (s.drawn x y n d).getV 15 = 0) : ¬ d.hit = true := by
  intro hhit
  cases (s.drawn_vF_of_hit x y n hhit).symm.trans h

theorem exec_drw_of_ok {d : Drawing} (h : s.drawSprite x y n = .ok d) : exec (.drw x y n) s = .next (s.drawn x y n d) := by
  obtain ⟨d', hd', hex⟩ | ⟨e, he, -⟩ := exec_drw_cases (s := s) x y n
  · cases hd'.symm.trans h
    exact hex
  · cases he.symm.trans h

theorem exec_drw_of_error {e : Fatal} (h : s.drawSprite x y n = .error e) : exec (.drw x y n) s = .next (s.raised e) := by
  obtain ⟨d, hd, -⟩ | ⟨e', he', hex, -⟩ := exec_drw_cases (s := s) x y n
  · cases hd.symm.trans h
  · cases he'.symm.trans h
    exact hex

/-- A completed draw flips the cells under the sprite's bits, and no other. -/
theorem State.drawn_cellAt {d : Drawing} (h : s.drawSprite x y n = .ok d) (hg : OnGrid px py) (lit : Bool)
    (hlit : lit = true ↔ s.SpriteAt x y n px py) : (s.drawn x y n d).cellAt px py = (s.cellAt px py ^^ lit) := by
  obtain ⟨hfb, -⟩ := State.drawSprite_ok h
  rw [State.cellAt_onGrid _ hg, State.cellAt_onGrid _ hg]
  exact hfb px py hg lit hlit

theorem State.drawn_cellAt_of_bit {d : Drawing} (h : s.drawSprite x y n = .ok d) (hg : OnGrid px py) (hbit : s.SpriteAt x y n px py) :
    (s.drawn x y n d).cellAt px py = !s.cellAt px py := by
  rw [State.drawn_cellAt h hg true (iff_of_true rfl hbit), Bool.xor_true]

theorem State.drawn_cellAt_of_no_bit {d : Drawing} (h : s.drawSprite x y n = .ok d) (hg : OnGrid px py)
    (hbit : ¬ s.SpriteAt x y n px py) : (s.drawn x y n d).cellAt px py = s.cellAt px py := by
  rw [State.drawn_cellAt h hg false (iff_of_false Bool.false_ne_true hbit), Bool.xor_false]

/-! ## A second draw -/

/-- The cells are all of the framebuffer. -/
theorem State.fb_eq_of_cellAt_eq (h : ∀ px py, OnGrid px py → t.cellAt px py = s.cellAt px py) : t.fb = s.fb := by
  apply Vector.ext
  intro k hk
  have hg : OnGrid (k % 64) (k / 64) := ⟨by omega, by omega⟩
  have hcell := h _ _ hg
  rw [State.cellAt_onGrid _ hg, State.cellAt_onGrid _ hg] at hcell
  simpa [Nat.div_add_mod] using hcell

/-- The sprite is in memory at `I`, which a draw leaves; with the origin as it was, the sprite is the same. -/
theorem State.drawn_spriteAt_iff {d : Drawing} (hx : (s.drawn x y n d).originX x = s.originX x)
    (hy : (s.drawn x y n d).originY y = s.originY y) : (s.drawn x y n d).SpriteAt x y n px py ↔ s.SpriteAt x y n px py := by
  unfold State.SpriteAt
  rw [hx, hy]
  rfl

/-! ## The first error -/

theorem range_split {r m : Nat} (h : r < m) : ∃ rest, List.range m = List.range r ++ r :: rest := by
  obtain ⟨k, rfl⟩ : ∃ k, m = r + (k + 1) := ⟨m - r - 1, by omega⟩
  rw [List.range_add, List.range_succ_eq_map]
  exact ⟨_, rfl⟩

theorem State.memRead_of_past {a : Nat} (hm : s.params.memOob = .fault) (ha : 4096 ≤ a) :
    s.memRead a = .error (.addressOutOfRange a) := by
  simp only [State.memRead, effectiveAddress, hm, if_pos ha]

theorem State.drawRows_append_of_ok {x0 y0 : Nat} {d d' : Drawing} {rs : List Nat} (qs : List Nat)
    (h : s.drawRows x0 y0 d rs = .ok d') : s.drawRows x0 y0 d (rs ++ qs) = s.drawRows x0 y0 d' qs := by
  induction rs generalizing d with
  | nil => cases h; rfl
  | cons r rs ih =>
    simp only [State.drawRows, List.cons_append] at h ⊢
    split at h
    · cases h
    · split at h
      · exact ih h
      · cases h

theorem State.drawRows_append_of_error {x0 y0 : Nat} {d : Drawing} {e : Fatal} {rs : List Nat} (qs : List Nat)
    (h : s.drawRows x0 y0 d rs = .error e) : s.drawRows x0 y0 d (rs ++ qs) = .error e := by
  induction rs generalizing d with
  | nil => cases h
  | cons r rs ih =>
    simp only [State.drawRows, List.cons_append] at h ⊢
    split at h
    · exact h
    · split at h
      · exact ih h
      · exact h

/-- The first `m` rows of a sprite of at least as many. -/
theorem State.mem_spritePixels_range {m : Nat} (hm : m ≤ n.toNat) :
    (px, py) ∈ s.spritePixels (s.originX x) (s.originY y) (List.range m) ↔ s.SpriteAt x y n px py ∧ py < s.originY y + m := by
  have hrows : (BitVec.ofNat 4 m).toNat = m := Nat.mod_eq_of_lt (Nat.lt_of_le_of_lt hm n.isLt)
  have hmem := s.mem_spritePixels x y (BitVec.ofNat 4 m) px py
  rw [hrows] at hmem
  rw [hmem]
  unfold State.SpriteAt
  rw [hrows]
  constructor
  · rintro ⟨h1, h2, h3, h4, hbit⟩
    exact ⟨⟨h1, h2, h3, by omega, hbit⟩, h4⟩
  · rintro ⟨⟨h1, h2, h3, -, hbit⟩, h4⟩
    exact ⟨h1, h2, h3, h4, hbit⟩

/-- The first `m` rows are drawn when they can be read and none of their bits is an error. -/
theorem State.drawRows_range_complete {m : Nat} (hm : m ≤ n.toNat) (d : Drawing) (hreach : ∀ r < m, s.Reaches (s.i.toNat + r))
    (hgrid : s.params.drawOob = .clip ∨ ∀ px py, s.SpriteAt x y n px py → py < s.originY y + m → OnGrid px py) :
    ∃ d', s.drawRows (s.originX x) (s.originY y) d (List.range m) = .ok d' := by
  rw [s.drawRows_eq_pixels _ _ _ _ fun r hr => hreach r (List.mem_range.mp hr)]
  refine Drawing.pixels_complete _ _ _ (hgrid.imp_right fun hall p hp => ?_)
  obtain ⟨hbit, hrow⟩ := (State.mem_spritePixels_range hm).mp hp
  exact hall p.1 p.2 hbit hrow

/-- The order in which sprite bits are drawn: by rows, and within a row by columns (R112). -/
def DrawnBefore (p q : Nat × Nat) : Prop := p.2 < q.2 ∨ (p.2 = q.2 ∧ p.1 < q.1)

theorem rowPixels_pairwise (row : Byte) (x0 py : Nat) : (rowPixels row x0 py).Pairwise DrawnBefore := by
  rw [rowPixels, List.pairwise_map]
  exact (List.pairwise_lt_range.filter _).imp fun hlt => .inr ⟨rfl, Nat.add_lt_add_left hlt x0⟩

theorem State.spritePixels_pairwise (s : State) (x0 y0 m : Nat) : (s.spritePixels x0 y0 (List.range m)).Pairwise DrawnBefore := by
  rw [State.spritePixels, List.pairwise_flatMap]
  refine ⟨fun r _ => rowPixels_pairwise _ _ _, List.pairwise_lt_range.imp fun {r q} hlt p hp p' hp' => .inl ?_⟩
  simp only [rowPixels, List.mem_map] at hp hp'
  obtain ⟨_, -, rfl⟩ := hp
  obtain ⟨_, -, rfl⟩ := hp'
  exact Nat.add_lt_add_left hlt y0

theorem Drawing.pixels_of_first_off (d : Drawing) {ps : List (Nat × Nat)} (hsorted : ps.Pairwise DrawnBefore) (hmem : (px, py) ∈ ps)
    (hoff : ¬ OnGrid px py) (hfirst : ∀ qx qy, (qx, qy) ∈ ps → DrawnBefore (qx, qy) (px, py) → OnGrid qx qy) :
    d.pixels .fault ps = .error (.drawOutOfBounds px py) := by
  obtain ⟨as, bs, rfl⟩ := List.append_of_mem hmem
  have hbefore : ∀ q ∈ as, q.1 < 64 ∧ q.2 < 32 := fun q hq =>
    hfirst q.1 q.2 (List.mem_append_left _ hq) ((List.pairwise_append.mp hsorted).2.2 q hq _ List.mem_cons_self)
  obtain ⟨d', hd'⟩ := d.pixels_complete .fault as (.inr hbefore)
  rw [Drawing.pixels_append, hd']
  simp only [Drawing.pixels, Drawing.pixel, dif_neg hoff]

end Sys2Proof.Machine

open Sys2Proof Sys2Proof.Machine

/-- Settles O29: the draw completes, and what it leaves is read off cell by cell. -/
theorem drawFlipsExactlyTheSpriteBits : Obligations.DrawFlipsExactlyTheSpriteBits := by
  intro x y n s hreach hgrid
  obtain ⟨d, hd⟩ := s.drawSprite_complete x y n hreach hgrid
  obtain ⟨-, hhit, hclip, -⟩ := State.drawSprite_ok hd
  refine ⟨_, exec_drw_of_ok hd, ?_, fun r hr => s.getV_setV_ne 15 r _ hr, fun px py hg => State.drawn_cellAt_of_bit hd hg,
    fun px py hg => State.drawn_cellAt_of_no_bit hd hg, fun h => s.drawn_vF_of_hit x y n (hhit.mpr h),
    fun h => s.drawn_vF_of_no_hit x y n (mt hhit.mp h), fun h => ?_, fun h => ?_⟩
  · simp only [State.drawn]
    split <;> rfl
  · rw [State.drawn, hclip.mpr h]
    rfl
  · rw [State.drawn, Bool.eq_false_iff.mpr (mt hclip.mp h)]
    rfl

/-- Settles O30: the rows before the error are drawn, in the first case all of them and in the second up to the bit. -/
theorem drawRaisesFirstError : Obligations.DrawRaisesFirstError := by
  intro x y n s
  refine ⟨fun r hr hm ha hbefore hgrid => ?_, fun px py hdraw hbit hoff hreach hfirst => ?_⟩
  · obtain ⟨rest, hrest⟩ := range_split hr
    obtain ⟨d, hd⟩ := State.drawRows_range_complete (n := n) (Nat.le_of_lt hr) { fb := s.fb, hit := false, clipped := false }
      (fun q hq => .inr (hbefore q hq)) hgrid
    refine exec_drw_of_error ?_
    rw [State.drawSprite, hrest, State.drawRows_append_of_ok _ hd]
    simp only [State.drawRows, State.memRead_of_past hm ha]
  · obtain ⟨-, -, hlow, hhigh, -⟩ := id hbit
    obtain ⟨rest, hrest⟩ := range_split (r := py - s.originY y) (m := n.toNat) (by omega)
    have hrows : List.range n.toNat = List.range (py - s.originY y + 1) ++ rest := by
      rw [hrest, List.range_succ, List.append_assoc]
      rfl
    have hm : py - s.originY y + 1 ≤ n.toNat := by omega
    refine exec_drw_of_error ?_
    rw [State.drawSprite, hrows]
    refine State.drawRows_append_of_error _ ?_
    rw [s.drawRows_eq_pixels _ _ _ _ fun r hr => hreach r (Nat.le_of_lt_succ (List.mem_range.mp hr)), hdraw]
    refine Drawing.pixels_of_first_off _ (s.spritePixels_pairwise _ _ _) ?_ hoff fun qx qy hq hlt => ?_
    · exact (State.mem_spritePixels_range hm).mpr ⟨hbit, by omega⟩
    · exact hfirst qx qy ((State.mem_spritePixels_range hm).mp hq).1 hlt

/-- Settles O31: the second draw has the same sprite at the same place, so each cell under a bit is flipped twice, and the second draw meets
a 1 where the first met a 0. -/
theorem doubleDrawRestoresFramebuffer : Obligations.DoubleDrawRestoresFramebuffer := by
  intro x y n s t hreach hgrid hex hx hy
  obtain ⟨d, hd⟩ := s.drawSprite_complete x y n hreach hgrid
  cases (exec_drw_of_ok hd).symm.trans hex
  have hsprite {px py : Nat} := State.drawn_spriteAt_iff (px := px) (py := py) hx hy
  obtain ⟨d', hd'⟩ := (s.drawn x y n d).drawSprite_complete x y n hreach
    (hgrid.imp_right fun hall px py hbit => hall px py (hsprite.mp hbit))
  obtain ⟨-, hhit, -⟩ := State.drawSprite_ok hd
  obtain ⟨-, hhit', -⟩ := State.drawSprite_ok hd'
  have hmet : d'.hit = true ↔ ∃ px py, OnGrid px py ∧ s.SpriteAt x y n px py ∧ s.cellAt px py = false := by
    rw [hhit']
    refine exists_congr fun px => exists_congr fun py => and_congr_right fun hg => ?_
    rw [hsprite]
    refine and_congr_right fun hbit => ?_
    rw [State.drawn_cellAt_of_bit hd hg hbit, Bool.not_eq_true']
  refine ⟨_, exec_drw_of_ok hd', ?_, fun h => State.drawn_vF_of_hit _ x y n (hmet.mpr h),
    fun h => State.drawn_vF_of_no_hit _ x y n (mt hmet.mp h), fun ⟨px, py, hg, hbit⟩ hvf => ?_, fun h => ⟨?_, ?_⟩⟩
  · refine State.fb_eq_of_cellAt_eq fun px py hg => ?_
    by_cases hbit : s.SpriteAt x y n px py
    · rw [State.drawn_cellAt_of_bit hd' hg (hsprite.mpr hbit), State.drawn_cellAt_of_bit hd hg hbit, Bool.not_not]
    · rw [State.drawn_cellAt_of_no_bit hd' hg (mt hsprite.mp hbit), State.drawn_cellAt_of_no_bit hd hg hbit]
  · have hcell : s.cellAt px py = false :=
      Bool.eq_false_iff.mpr fun hone => State.not_hit_of_drawn_vF hvf (hhit.mpr ⟨px, py, hg, hbit, hone⟩)
    exact State.drawn_vF_of_hit _ x y n (hmet.mpr ⟨px, py, hg, hbit, hcell⟩)
  · refine State.drawn_vF_of_no_hit _ x y n fun hd => ?_
    obtain ⟨px, py, hg, hbit, -⟩ := hhit.mp hd
    exact h ⟨px, py, hg, hbit⟩
  · refine State.drawn_vF_of_no_hit _ x y n fun hd => ?_
    obtain ⟨px, py, hg, hbit, -⟩ := hmet.mp hd
    exact h ⟨px, py, hg, hbit⟩
end

section
/-!
Memory transfers (R162 to R164, R184): what a store and a load of registers leave when every address reaches a byte, their error when one
does not, and that stored bytes are fetched next (R64).
-/
namespace Sys2Proof.Machine

variable {s t : State} {i : Instr} {x : Reg}

/-! ## Stores -/

theorem State.storeBytes_reaches {bs : List Byte} {a : Nat} (h : s.storeBytes a bs = .ok t) : ∀ j < bs.length, s.Reaches (a + j) := by
  induction bs generalizing s a with
  | nil => intro j hj; cases hj
  | cons b bs ih =>
    simp only [State.storeBytes] at h
    split at h
    · next u hu =>
      obtain ⟨rfl, ha⟩ := State.memWrite_ok hu
      intro j hj
      cases j with
      | zero => exact ha
      | succ j =>
        have htail : s.Reaches (a + 1 + j) := ih h j (Nat.lt_of_succ_lt_succ hj)
        rwa [Nat.add_assoc, Nat.add_comm 1 j] at htail
    · cases h

/-- A store whose last address reaches a byte: the bytes stored, every other byte, and all else as before. -/
theorem State.store_of_reach {bs : List Byte} {last : Nat} (hlen : bs.length = last + 1) (hlast : last < 4096) (hwf : s.mem.wf = true)
    (hreach : s.Reaches (s.i.toNat + last)) : ∃ t, s.complete (s.storeBytes s.i.toNat bs) = .next t ∧
      (∀ j (hj : j < bs.length), t.mem.read ((s.i.toNat + j) % 4096) = bs[j]) ∧
      (∀ a, (∀ j < bs.length, a ≠ (s.i.toNat + j) % 4096) → t.mem.read a = s.mem.read a) ∧ t = { s with mem := t.mem } := by
  obtain ⟨t, ht⟩ := State.storeBytes_of_reach (s := s) (a := s.i.toNat) (bs := bs) (hreach.imp_right fun h => by omega)
  refine ⟨t, ?_, fun j hj => State.storeBytes_read_stored hwf (by omega) ht j hj, fun a ha => State.storeBytes_read_other hwf ht ha,
    (State.storeBytes_ok ht).1⟩
  rw [ht]
  rfl

/-- A store that passes the end of memory under MEM_OOB = fault raises its first address at or above 4096. -/
theorem State.store_of_past {bs : List Byte} {last : Nat} (hlen : bs.length = last + 1) (hm : s.params.memOob = .fault)
    (hpast : 4096 ≤ s.i.toNat + last) :
    s.complete (s.storeBytes s.i.toNat bs) = .next (s.raised (.addressOutOfRange (max s.i.toNat 4096))) := by
  obtain ⟨t, ht, -⟩ | ⟨-, -, hex⟩ := storeBytes_complete_cases s s.i.toNat bs
  · have hreach : s.Reaches (s.i.toNat + last) := State.storeBytes_reaches ht last (by omega)
    rw [State.Reaches, hm] at hreach
    exact absurd (hreach.resolve_left nofun) (Nat.not_lt.mpr hpast)
  · exact hex

theorem State.rangeValues_length (s : State) (x : Reg) : (s.rangeValues x).length = x.val + 1 := by
  rw [State.rangeValues, List.length_map, registerRange_length]

theorem State.rangeValues_getElem (s : State) (x : Reg) {j : Nat} (hj : j < (s.rangeValues x).length) :
    (s.rangeValues x)[j] = s.getV ⟨j, by rw [State.rangeValues_length] at hj; omega⟩ := by
  simp only [State.rangeValues, List.getElem_map, registerRange_getElem]

/-! ## The load of registers -/

theorem State.loadRange_of_first_past {a : Nat} {rs qs : List Reg} {r : Reg} (hm : s.params.memOob = .fault)
    (hbefore : ∀ q ∈ rs, a + q.val < 4096) (hr : 4096 ≤ a + r.val) :
    s.loadRange a (rs ++ r :: qs) = .error (.addressOutOfRange (a + r.val)) := by
  induction rs generalizing s with
  | nil => simp only [List.nil_append, State.loadRange, State.memRead_of_past hm hr]
  | cons q rs ih =>
    have hq : a + q.val < 4096 := hbefore q List.mem_cons_self
    simp only [List.cons_append, State.loadRange, s.memRead_of_reach (.inr hq)]
    exact ih (s := s.setV q _) hm fun p hp => hbefore p (List.mem_cons_of_mem q hp)

/-- `V[0]` to `V[x]` in order, split at one of them. -/
theorem registerRange_split {x r : Reg} (h : r ≤ x) :
    ∃ before after, registerRange x = before ++ r :: after ∧ ∀ q ∈ before, q < r := by
  have hsorted : (registerRange x).Pairwise (· < ·) := (List.pairwise_lt_finRange 16).sublist (List.take_sublist _ _)
  obtain ⟨before, after, hsplit⟩ := List.append_of_mem ((mem_registerRange x r).mpr h)
  rw [hsplit] at hsorted
  exact ⟨before, after, hsplit, fun q hq => (List.pairwise_append.mp hsorted).2.2 q hq r List.mem_cons_self⟩

theorem exec_loadRegs_of_past (hm : s.params.memOob = .fault) (hpast : 4096 ≤ s.i.toNat + x.val) :
    exec (.loadRegs x) s = .next (s.raised (.addressOutOfRange (max s.i.toNat 4096))) := by
  obtain ⟨r, hr⟩ : ∃ r : Reg, s.i.toNat + r.val = max s.i.toNat 4096 :=
    ⟨⟨max s.i.toNat 4096 - s.i.toNat, by omega⟩, by dsimp only; omega⟩
  have hle : r ≤ x := Fin.le_def.mpr (by omega)
  obtain ⟨before, after, hsplit, hbefore⟩ := registerRange_split hle
  have hread : ∀ q ∈ before, s.i.toNat + q.val < 4096 := by
    intro q hq
    have hlt := Fin.lt_def.mp (hbefore q hq)
    omega
  rw [exec_loadRegs, hsplit, State.loadRange_of_first_past hm hread (by omega), hr]
  rfl

/-! ## The bytes an instruction stores -/

/-- An instruction with stored bytes is a store of a list of them. -/
theorem exec_of_storedByte {k : Nat} {b : Byte} (h : i.storedByte s k = some b) : ∃ bs : List Byte, bs[k]? = some b ∧
    bs.length ≤ 4096 ∧ exec i s.beginStep = s.beginStep.complete (s.beginStep.storeBytes s.beginStep.i.toNat bs) := by
  cases i
  case storeRegs x =>
    refine ⟨s.rangeValues x, ?_, by rw [State.rangeValues_length]; omega, rfl⟩
    simp only [Instr.storedByte] at h
    split at h
    · next hk =>
      have hlt : k < (s.rangeValues x).length := by rw [State.rangeValues_length]; omega
      rw [List.getElem?_eq_getElem hlt, State.rangeValues_getElem]
      exact h
    · cases h
  case storeBcd x =>
    refine ⟨decimalDigits (s.getV x), ?_, by simp [decimalDigits], rfl⟩
    match k with
    | 0 | 1 | 2 => exact h
    | _ + 3 => cases h
  all_goals cases h

/-! ## Decimal digits -/

theorem toNat_ofNat_digit {d : Nat} (h : d < 10) : (BitVec.ofNat 8 d).toNat = d :=
  Nat.mod_eq_of_lt (by omega)

end Sys2Proof.Machine

open Sys2Proof Sys2Proof.Machine

/-- Settles O44: I is 16 bits wide. -/
theorem addIndex : Obligations.AddIndex := by
  intro x s
  refine ⟨_, exec_addI s x, ?_, rfl⟩
  have hv := (s.getV x).isLt
  simp only [State.setI_i, BitVec.toNat_add, BitVec.toNat_setWidth]
  omega

/-- Settles O45: the store of the values of `V[0]` to `V[x]`. -/
theorem storeRegisters : Obligations.StoreRegisters := by
  intro x s hwf hreach
  obtain ⟨t, hex, hstored, hother, hframe⟩ := State.store_of_reach (s.rangeValues_length x) (by omega) hwf hreach
  refine ⟨t, hex, fun j hj => ?_, fun a ha => hother a fun j hj => ?_, hframe⟩
  · have hlt : j.val < (s.rangeValues x).length := by rw [State.rangeValues_length]; exact Nat.lt_succ_of_le hj
    rw [hstored j.val hlt, State.rangeValues_getElem]
  · rw [State.rangeValues_length] at hj
    exact ha ⟨j, by omega⟩ (Nat.le_of_lt_succ hj)

/-- Settles O46: with every address in reach the load meets no error. -/
theorem loadRegisters : Obligations.LoadRegisters := by
  intro x s hreach
  obtain ⟨t, hex, hframe, hv⟩ | ⟨q, hq, hm, ha, -⟩ := exec_loadRegs_cases (s := s) x
  · exact ⟨t, hex, fun j hj => (hv j).trans (if_pos hj), fun j hj => (hv j).trans (if_neg (Fin.not_le.mpr hj)), hframe⟩
  · rw [State.Reaches, hm] at hreach
    have hlt := hreach.resolve_left nofun
    have hle : q.val ≤ x.val := hq
    omega

/-- Settles O47: the transfer stops at its first address past memory, and the error is raised on the state it started from. -/
theorem transferPastMemoryFaults : Obligations.TransferPastMemoryFaults := by
  intro x s hm i last hmem hpast
  simp only [List.mem_cons, Prod.mk.injEq, List.not_mem_nil, or_false] at hmem
  obtain ⟨rfl, rfl⟩ | ⟨rfl, rfl⟩ | ⟨rfl, rfl⟩ := hmem
  · exact State.store_of_past (s.rangeValues_length x) hm hpast
  · exact exec_loadRegs_of_past hm hpast
  · exact State.store_of_past (bs := decimalDigits (s.getV x)) rfl hm hpast

/-- Settles O48: the tick leaves memory, and a fetch reads each of its two bytes at the address modulo 4096. -/
theorem storedBytesAreFetchedNext : Obligations.StoredBytesAreFetchedNext := by
  intro s t i k b a hwf h0 hf hd hb h ht hfetch
  obtain ⟨bs, hbs, hlen, hexec⟩ := exec_of_storedByte hb
  obtain ⟨hk, hbk⟩ := List.getElem?_eq_some_iff.mp hbs
  obtain ⟨u, hu, hnext, hframe, -⟩ | ⟨-, -, hnext⟩ := storeBytes_complete_cases s.beginStep s.beginStep.i.toNat bs
  · have hrun : u.halt = none := by rw [hframe]; exact h0
    cases (step_of_exec_running h0 hf hd (hexec.trans hnext) hrun).symm.trans h
    have hstored : u.mem.read ((s.i.toNat + k) % 4096) = b := (State.storeBytes_read_stored (s := s.beginStep) hwf hlen hu k hk).trans hbk
    refine ⟨_, _, State.fetch_fetchable hfetch, fun haddr => ?_, fun haddr => ?_⟩
    · rw [← hstored, haddr]
      rfl
    · rw [← hstored, haddr]
      rfl
  · cases (step_of_exec h0 hf hd (hexec.trans hnext)).symm.trans h
    cases ht

/-- Settles O53: the three digits are below 10, so a byte holds each of them. -/
theorem storeDecimalDigits : Obligations.StoreDecimalDigits := by
  intro x s hwf hreach
  obtain ⟨t, hex, hstored, hother, hframe⟩ :=
    State.store_of_reach (bs := decimalDigits (s.getV x)) (last := 2) rfl (by omega) hwf hreach
  have hv := (s.getV x).isLt
  have hhundreds : (t.mem.read (s.i.toNat % 4096)).toNat = (s.getV x).toNat / 100 :=
    (congrArg BitVec.toNat (hstored 0 (show 0 < 3 by decide))).trans (toNat_ofNat_digit (by omega))
  have htens : (t.mem.read ((s.i.toNat + 1) % 4096)).toNat = (s.getV x).toNat / 10 % 10 :=
    (congrArg BitVec.toNat (hstored 1 (show 1 < 3 by decide))).trans (toNat_ofNat_digit (by omega))
  have hunits : (t.mem.read ((s.i.toNat + 2) % 4096)).toNat = (s.getV x).toNat % 10 :=
    (congrArg BitVec.toNat (hstored 2 (show 2 < 3 by decide))).trans (toNat_ofNat_digit (by omega))
  refine ⟨t, hex, fun j hj => ?_, by omega, hother, hframe⟩
  match j with
  | 0 => rw [Nat.add_zero]; omega
  | 1 => omega
  | 2 => omega
end

section
/-!
Jumps, the call with its return, flag arithmetic, the random byte, timer access and the keypad instructions (R121 to R124, R146 to R149,
R170 to R172, R181 to R183).
-/
namespace Sys2Proof

/-! ## The words of the timer instructions -/

theorem decode_eq_timer_iff {p : Profile} {w : Word} {i : Instr} {x : Reg} {nn : Byte}
    (hrow : (i, nn) ∈ ([(.ldVxDt x, 0x07), (.ldDtVx x, 0x15), (.ldStVx x, 0x18)] : List (Instr × Byte))) :
    decode p w = .instr i ↔ family w = 0xF ∧ fieldNN w = nn ∧ fieldX w = x := by
  have hword (hbase : i.profile = .base) (henc : encode i = packXNN 0xF x nn) :
      decode p w = .instr i ↔ family w = 0xF ∧ fieldNN w = nn ∧ fieldX w = x := by
    rw [decode_eq_iff_encode_eq (decode_encode (Instr.wellFormed_of_base hbase)), henc, packXNN_eq_iff, and_comm (a := fieldX w = x)]
  simp only [List.mem_cons, Prod.mk.injEq, List.not_mem_nil, or_false] at hrow
  obtain ⟨rfl, rfl⟩ | ⟨rfl, rfl⟩ | ⟨rfl, rfl⟩ := hrow
  all_goals exact hword rfl rfl

end Sys2Proof

namespace Sys2Proof.Machine

variable {s : State} {x : Reg}

/-! ## Flags -/

theorem flagByte_toNat (c : Bool) : (flagByte c).toNat = c.toNat := by
  cases c <;> rfl

/-- The carry is the ninth bit of the sum (R146). -/
theorem carryFlag_toNat (a b : Byte) : (carryFlag a b).toNat = (a.toNat + b.toNat) / 256 := by
  have ha := a.isLt
  have hb := b.isLt
  rw [carryFlag, flagByte_toNat]
  by_cases h : 255 < a.toNat + b.toNat
  · rw [decide_eq_true h, Bool.toNat_true]
    omega
  · rw [decide_eq_false h, Bool.toNat_false]
    omega

theorem shiftedOutRight_toNat (a : Byte) : (shiftedOutRight a).toNat = a.toNat % 2 := by
  rw [shiftedOutRight, BitVec.toNat_and]
  exact Nat.and_one_is_mod a.toNat

theorem shiftedOutLeft_toNat (a : Byte) : (shiftedOutLeft a).toNat = a.toNat / 128 := by
  have ha := a.isLt
  rw [shiftedOutLeft, flagByte_toNat, BitVec.getLsbD, Nat.toNat_testBit]
  omega

theorem shiftRight_one_toNat (a : Byte) : (a >>> 1).toNat = a.toNat / 2 := by
  rw [BitVec.toNat_ushiftRight, Nat.shiftRight_eq_div_pow, Nat.pow_one]

theorem shiftLeft_one_toNat (a : Byte) : (a <<< 1).toNat = 2 * a.toNat % 256 := by
  rw [BitVec.toNat_shiftLeft, Nat.shiftLeft_eq, Nat.pow_one, Nat.mul_comm]

/-- With another destination the flag stays in VF, and the result is of the old operand; with VF the result is of the flag (R13). -/
theorem State.flag_result_of_ne (s : State) (flag result : Byte) (hx : x ≠ 15) :
    ((s.setV vF flag).setV x result).getV 15 = flag ∧ (s.setV vF flag).getV x = s.getV x :=
  ⟨(State.getV_setV_ne _ x 15 result hx.symm).trans (s.getV_setV_same 15 flag), s.getV_setV_ne 15 x flag hx⟩

theorem State.flag_result_frame (s : State) (flag result : Byte) : (∀ r, r ≠ x → r ≠ 15 →
    ((s.setV vF flag).setV x result).getV r = s.getV r) ∧
    (s.setV vF flag).setV x result = { s with v := ((s.setV vF flag).setV x result).v } :=
  ⟨fun _ hx hflag => State.getV_flag_result flag result (not_or.mpr ⟨hflag, hx⟩), rfl⟩

/-! ## Keys -/

theorem State.keyPressed_eq {k : Reg} (hk : k.val = (s.getV x).toNat % 16) : s.keyPressed x = s.key[k] := by
  obtain rfl : k = s.keyIndex x := by
    apply Fin.ext
    rw [hk]
    exact (BitVec.extractLsb'_toNat 0 4 (s.getV x)).symm
  rfl

/-- The least pressed key is the one that is waited for. -/
theorem State.leastKey_eq_some {k : Reg} (hk : s.key[k] = true) (hleast : ∀ q : Reg, q < k → s.key[q] = false) :
    s.leastKey = some k := by
  cases h : s.leastKey with
  | none => exact absurd (State.leastKey_none h k) (by rw [hk]; nofun)
  | some q =>
    obtain ⟨hq, hbelow⟩ := State.leastKey_some h
    have hkq : ¬ k < q := fun hlt => by rw [hbelow k hlt] at hk; cases hk
    have hqk : ¬ q < k := fun hlt => by rw [hleast q hlt] at hq; cases hq
    rw [le_antisymm (not_lt.mp hkq) (not_lt.mp hqk)]

theorem State.leastKey_eq_none (h : ∀ k : Reg, s.key[k] = false) : s.leastKey = none := by
  cases hk : s.leastKey with
  | none => rfl
  | some k => exact absurd (State.leastKey_some hk).1 (by rw [h k]; nofun)

end Sys2Proof.Machine

open Sys2Proof Sys2Proof.Machine

/-- Settles O34: each jump writes PC alone; NNN + V0 is below 2^16. -/
theorem jumpsTakeTargetAsIs : Obligations.JumpsTakeTargetAsIs := by
  intro nnn s
  have hsum : (s.offsetTarget nnn).toNat = nnn.toNat + (s.getV 0).toNat :=
    Nat.mod_eq_of_lt (by have := nnn.isLt; have := (s.getV 0).isLt; omega)
  exact ⟨⟨_, exec_jp s nnn, addressOperand_toNat nnn, rfl⟩, ⟨_, exec_jpV0 s nnn, hsum, rfl⟩⟩

/-- Settles O35: the slot below the stack pointer that the call left holds the PC the call pushed. -/
theorem callThenRetResumesAfterCall : Obligations.CallThenRetResumesAfterCall := by
  intro nnn s t u hroom h hsp hstack
  cases (exec_call_of_room nnn hroom).symm.trans h
  have hocc : u.sp.val = s.sp.val + 1 := congrArg Fin.val hsp
  refine ⟨_, exec_ret_of_occupied (by omega), ?_, ?_, rfl⟩
  · simp [hocc, hstack]
  · simp [hocc]

/-- Settles O40: VF takes the carry of the old operands before `V[x]` takes their sum. -/
theorem addWithCarry : Obligations.AddWithCarry := by
  intro x y s
  refine ⟨_, exec_addReg s x y, ?_, fun hx => ?_, s.flag_result_frame _ _⟩
  · rw [State.getV_setV_same, BitVec.toNat_add]
  · rw [(s.flag_result_of_ne _ _ hx).1, carryFlag_toNat]

/-- Settles O41: the flag is written first, and the shift reads `V[x]` as it then stands: the old value, or with `x = 15` the flag. -/
theorem shiftsByOneBit : Obligations.ShiftsByOneBit := by
  intro x y s
  refine ⟨⟨_, exec_shr s x y, fun hx => ⟨?_, ?_⟩, ?_, s.flag_result_frame _ _⟩,
    ⟨_, exec_shl s x y, fun hx => ⟨?_, ?_⟩, ?_, s.flag_result_frame _ _⟩, fun z => ⟨rfl, rfl⟩⟩
  · rw [State.getV_setV_same, (s.flag_result_of_ne _ 0 hx).2, shiftRight_one_toNat]
  · rw [(s.flag_result_of_ne _ _ hx).1, shiftedOutRight_toNat]
  · rintro rfl
    rw [State.getV_setV_same, State.getV_setV_same]
    apply BitVec.eq_of_toNat_eq
    rw [shiftRight_one_toNat, shiftedOutRight_toNat]
    exact Nat.div_eq_of_lt (Nat.mod_lt _ (by decide))
  · rw [State.getV_setV_same, (s.flag_result_of_ne _ 0 hx).2, shiftLeft_one_toNat]
  · rw [(s.flag_result_of_ne _ _ hx).1, shiftedOutLeft_toNat]
  · rintro rfl
    rw [State.getV_setV_same, State.getV_setV_same, shiftLeft_one_toNat, shiftedOutLeft_toNat]
    have hlt := (s.getV 15).isLt
    omega

/-- Settles O42: whatever the byte drawn is, the mask is read off bit by bit. -/
theorem randomUnderMask : Obligations.RandomUnderMask := by
  intro x nn s
  refine ⟨_, exec_rnd s x nn, fun b => ?_, fun r hr => s.getV_setV_ne x r _ hr, rfl, rfl⟩
  rw [State.countDraw_getV, State.getV_setV_same, BitVec.getLsbD_and]
  rfl

/-- Settles O49: the words by the encoder, and each instruction is one write. -/
theorem timerAccess : Obligations.TimerAccess := by
  intro p w x s
  exact ⟨fun i nn hrow => decode_eq_timer_iff hrow, ⟨_, exec_ldVxDt s x, s.getV_setV_same x _, s.setV_frame x _⟩,
    ⟨_, exec_ldDtVx s x, rfl, rfl⟩, ⟨_, exec_ldStVx s x, rfl, rfl⟩⟩

/-- Settles O52: the skips by the state of the key named, and the wait by the least pressed key. -/
theorem keypadInstructions : Obligations.KeypadInstructions := by
  intro x s
  refine ⟨fun k hk => ⟨fun hpressed => ?_, fun hreleased => ?_⟩, fun k hk hleast => ?_, fun hnone => ?_⟩
  · rw [exec_skp, exec_sknp, State.keyPressed_eq hk, hpressed]
    exact ⟨rfl, rfl⟩
  · rw [exec_skp, exec_sknp, State.keyPressed_eq hk, hreleased]
    exact ⟨rfl, rfl⟩
  · refine ⟨s.setV x (keyByte k), ?_, ?_, s.setV_frame x _⟩
    · rw [exec_waitKey, State.leastKey_eq_some hk hleast]
    · rw [State.getV_setV_same]
      exact Nat.mod_eq_of_lt (by omega)
  · rw [exec_waitKey, State.leastKey_eq_none hnone]
    rfl
end

section
/-!
Reset and the host (R41, R101, R204, R205, R216 to R219, R230 to R233): the fields a reset leaves, the first fetch after a load, the
accesses between transactions, and that only a reset leaves the halted state.
-/
namespace Sys2Proof.Machine

variable {s : State} {e : Fatal}

/-! ## Reset -/

/-- Under the default FONT no cell differs from its reset contents, so none is listed. -/
theorem Memory.ofFont_default : Memory.ofFont Config.params.font = [] := by
  decide

theorem State.reset_eq_resetWith : State.reset = State.resetWith Config.params := by
  rw [State.resetWith, Memory.ofFont_default]
  rfl

theorem State.resetWith_asReset (p : Params) : (State.resetWith p).AsReset p := by
  exact ⟨fun a ha => (Memory.read_ofFont p.font a).trans (dif_pos ha),
    fun a ha => (Memory.read_ofFont p.font a).trans (dif_neg (Nat.not_lt.mpr ha)), fun r => Vector.getElem_replicate r.isLt, rfl, rfl,
    rfl, fun _ hj => Vector.getElem_replicate hj, fun _ hk => Vector.getElem_replicate hk, rfl, rfl,
    fun _ hk => Vector.getElem_replicate hk, rfl, rfl, rfl, rfl⟩

theorem State.reset_asReset : State.reset.AsReset Config.params := by
  rw [State.reset_eq_resetWith]
  exact State.resetWith_asReset Config.params

/-- A reset at any time differs from a construction in the count of draws alone, which is no field of the spec (R232). -/
theorem State.resetSession_asReset (s : State) : s.resetSession.AsReset s.params := State.resetWith_asReset s.params

/-- The first load after a construction. -/
theorem State.load_resetWith (p : Params) {bytes : List Byte} (hlen : bytes.length ≤ maxProgram) : ∃ t,
    (State.resetWith p).load bytes = (.ok, t) ∧ t.pc = 0x200 ∧ t.mem = (Memory.ofFont p.font).writeList 0x200 bytes :=
  ⟨_, State.load_of_fits rfl hlen, rfl, rfl⟩

/-! ## A halted core -/

/-- A halted core steps in place, and a load after a step is refused; what is left to the host is the keypad (R96, R101, R204). -/
theorem State.answer_halted (h : s.halt = some e) (hload : s.loaded = true) {m : HostMove} (hm : m ≠ .reset) :
    (s.answer m).2 = { s with key := (s.answer m).2.key, out := (s.answer m).2.out } := by
  cases m with
  | load bytes =>
    simp only [State.answer, State.load_of_loaded hload]
  | step =>
    rw [State.answer_step (step_halted h)]
    rfl
  | readFramebuffer => rfl
  | writeKeypad keys =>
    simp only [State.answer]
    rw [State.writeKeys_frame]
  | querySound => rfl
  | reset => exact absurd rfl hm

theorem State.session_halted {moves : List HostMove} (h : s.halt = some e) (hload : s.loaded = true) (hreset : HostMove.reset ∉ moves) :
    s.session moves = { s with key := (s.session moves).key, out := (s.session moves).out } := by
  induction moves generalizing s with
  | nil => rfl
  | cons m moves ih =>
    obtain ⟨hm, hrest⟩ := not_or.mp (mt List.mem_cons.mpr hreset)
    have hmove := State.answer_halted h hload (Ne.symm hm)
    rw [State.session, ih (by rw [hmove]; exact h) (by rw [hmove]; exact hload) hrest]
    rw [hmove]

end Sys2Proof.Machine

open Sys2Proof Sys2Proof.Machine

/-- Settles O55: field by field for a construction, and a reset move is one. -/
theorem resetLeavesEveryField : Obligations.ResetLeavesEveryField :=
  ⟨State.reset_eq_resetWith, State.reset_asReset, State.resetWith_asReset, fun s => ⟨rfl, s.resetSession_asReset⟩⟩

/-- Settles O57: the program is written from the PC of reset on, above the font. -/
theorem firstStepFetchesFirstProgramWord : Obligations.FirstStepFetchesFirstProgramWord := by
  intro p hi lo rest hlen
  have hmax : (hi :: lo :: rest).length ≤ maxProgram := Nat.add_le_add_right hlen 2
  have hfit : 0x200 + (hi :: lo :: rest).length ≤ 4096 := Nat.add_le_add_left hmax 0x200
  have hwf : (Memory.ofFont p.font).wf = true := Memory.ofFont_wf p.font
  obtain ⟨t, hload, hpc, hmem⟩ := State.load_resetWith p hmax
  have hword : t.wordAtPc = hi ++ lo := by
    rw [State.wordAtPc, hpc, hmem]
    exact congrArg₂ _ (Memory.read_writeList_inside _ _ 0x200 0 hwf hfit (Nat.zero_lt_succ _))
      (Memory.read_writeList_inside _ _ 0x200 1 hwf hfit (Nat.succ_lt_succ (Nat.zero_lt_succ _)))
  have hfetch : t.Fetchable := .inr (by rw [hpc]; decide)
  refine ⟨t, hload, (State.fetch_fetchable hfetch).trans (congrArg _ hword), hword, fun a ha => ?_⟩
  rw [hmem, Memory.read_writeList_outside _ _ 0x200 a hwf hfit (.inl (by omega)), Memory.read_ofFont, dif_pos ha]

/-- Settles O58: the reads leave the state, and a keypad write goes through its pairs in order. -/
theorem hostAccesses : Obligations.HostAccesses := by
  intro s
  refine ⟨⟨_, rfl, fun j hj => ?_⟩, ?_,
    fun keys => ⟨s.writeKeys keys, rfl, ?_, fun q hq => s.writeKeys_other hq, s.writeKeys_frame keys⟩⟩
  · rw [State.readFramebuffer, Vector.getElem_map]
    cases s.fb[j] <;> rfl
  · rw [← timer_nonzero]
    rfl
  · rintro q b before rest rfl hlast
    exact s.writeKeys_last before rest q b hlast

/-- Settles O59: move by move, a halted core keeps everything but the keypad and the outputs. -/
theorem onlyResetLeavesHalt : Obligations.OnlyResetLeavesHalt :=
  fun _ _ _ h hload hreset => State.session_halted h hload hreset
end
